-- ==== Sys2Proof/Word.lean ====
section
/-! DEFINITION. The word types of the machine: register bytes, 16-bit words and 12-bit addresses (00_scope R9). -/

namespace Sys2Proof

/-- An 8-bit unsigned value: a V register, a memory byte, an immediate nn (00_scope R9, V_WIDTH). -/
abbrev Byte := BitVec 8

/-- A 16-bit unsigned value: pc, ir, a stack entry, an instruction word (00_scope R9). -/
abbrev Word := BitVec 16

/-- A 12-bit immediate address nnn (30_encoding R66). -/
abbrev Addr12 := BitVec 12

end Sys2Proof
end

