-- ==== Sys2Proof/Config.lean ====
section
/-! DEFINITION. What is fixed for the machine: its sizes (00_scope R9), the types of its named parameters
(00_scope R10, R11, R15 to R18) and its one free value, the random byte (00_scope R13). The default values of the
parameters are `Machine.defaultParams` in Machine/Params.lean. -/

namespace Sys2Proof

/-- MEM_SIZE: 4096 bytes, addresses 0x000 to 0xFFF (00_scope R9, 20_memory R42). -/
abbrev memSize : Nat := 4096

/-- STACK_DEPTH: 16 entries (00_scope R9, 10_state R31). -/
abbrev stackDepth : Nat := 16

/-- DISP_W: 64 columns (00_scope R9). -/
abbrev dispW : Nat := 64

/-- DISP_H: 32 rows (00_scope R9). -/
abbrev dispH : Nat := 32

/-- FONT_DATA is 16 glyphs of 5 bytes (00_scope R12). -/
abbrev fontSize : Nat := 80

/-- FLAG_ORDER (00_scope R15): whether the VF flag is written after or before the result. -/
inductive FlagOrder where
  | flagLast
  | flagFirst
  deriving DecidableEq, Repr

/-- KEY_SKIP_CONSUME (00_scope R18): when Ex9E and ExA1 reset KEY to none. -/
inductive KeySkipConsume where
  | always
  | onMatch
  | never
  deriving DecidableEq, Repr

/-- FONT_GLYPH_STRIDE (00_scope R16): the default 1 and the alternative 5. -/
inductive GlyphStride where
  | one
  | five
  deriving DecidableEq, Repr

/-- The named parameters of the core (00_scope R10, R11, R15 to R18; log 2). -/
structure Params where
  /-- FONT_BASE (R10). -/
  fontBase : Nat
  /-- PROG_BASE (R11). -/
  progBase : Nat
  /-- FLAG_ORDER (R15). -/
  flagOrder : FlagOrder
  /-- FONT_GLYPH_STRIDE (R16). -/
  glyphStride : GlyphStride
  /-- QUIRK_SHIFT_USES_VY (R17). -/
  shiftUsesVy : Bool
  /-- QUIRK_JUMP_USES_VX (R17). -/
  jumpUsesVx : Bool
  /-- QUIRK_FX1E_ADDS (R17). -/
  fx1eAdds : Bool
  /-- KEY_SKIP_CONSUME (R18). -/
  keySkipConsume : KeySkipConsume
  deriving DecidableEq, Repr

/-- RandomByte() (00_scope R13, 44_index_random_draw R104): the n-th byte drawn, a free value.
It has no body, so no proof can see what it is (DESIGN CHOICE, log 8). -/
opaque Config.randomByte : Nat → Byte

end Sys2Proof
end

