-- ==== Sys2Proof/Syntax.lean ====
section
/-! DEFINITION. The instructions: one constructor per row of spec/opcode_table.json (30_encoding R71).
The operands are typed by the width of their field (30_encoding R66), so that every term is an instruction. -/

namespace Sys2Proof

/-- A register index, the field x or y: V0 to VF (30_encoding R67). -/
abbrev Reg := Fin 16

/-- The index of VF, the flag register (10_state R22). -/
abbrev regF : Reg := 15

/-- The 4-bit count n of Dxyn, 0 to 15 rows (30_encoding R68). -/
abbrev Height := Fin 16

/-- The 34 instructions, in the order of the opcode table. -/
inductive Instr where
  /-- 00E0 (R78). -/
  | cls
  /-- 00EE (R79). -/
  | ret
  /-- 1nnn (R80). -/
  | jp (nnn : Addr12)
  /-- 2nnn (R81). -/
  | call (nnn : Addr12)
  /-- 3xnn (R84). -/
  | seImm (x : Reg) (nn : Byte)
  /-- 4xnn (R85). -/
  | sneImm (x : Reg) (nn : Byte)
  /-- 5xy0 (R86). -/
  | seReg (x y : Reg)
  /-- 6xnn (R88). -/
  | ldImm (x : Reg) (nn : Byte)
  /-- 7xnn (R89). -/
  | addImm (x : Reg) (nn : Byte)
  /-- 8xy0 (R92). -/
  | ldReg (x y : Reg)
  /-- 8xy1 (R93). -/
  | or (x y : Reg)
  /-- 8xy2 (R94). -/
  | and (x y : Reg)
  /-- 8xy3 (R95). -/
  | xor (x y : Reg)
  /-- 8xy4 (R96). -/
  | addReg (x y : Reg)
  /-- 8xy5 (R97). -/
  | sub (x y : Reg)
  /-- 8xy6 (R99). -/
  | shr (x y : Reg)
  /-- 8xy7 (R98). -/
  | subn (x y : Reg)
  /-- 8xyE (R100). -/
  | shl (x y : Reg)
  /-- 9xy0 (R87). -/
  | sneReg (x y : Reg)
  /-- Annn (R103). -/
  | ldI (nnn : Addr12)
  /-- Bnnn (R82). -/
  | jpV0 (nnn : Addr12)
  /-- Cxnn (R104). -/
  | rnd (x : Reg) (nn : Byte)
  /-- Dxyn (R105). -/
  | drw (x y : Reg) (n : Height)
  /-- Ex9E (R108). -/
  | skp (x : Reg)
  /-- ExA1 (R109). -/
  | sknp (x : Reg)
  /-- Fx07 (R111). -/
  | ldVDt (x : Reg)
  /-- Fx0A (R115). -/
  | ldVK (x : Reg)
  /-- Fx15 (R112). -/
  | ldDtV (x : Reg)
  /-- Fx18 (R113). -/
  | ldStV (x : Reg)
  /-- Fx1E (R114). -/
  | ldIV (x : Reg)
  /-- Fx29 (R116). -/
  | ldF (x : Reg)
  /-- Fx33 (R118). -/
  | ldB (x : Reg)
  /-- Fx55 (R119). -/
  | ldMemV (x : Reg)
  /-- Fx65 (R120). -/
  | ldVMem (x : Reg)
  deriving DecidableEq, Repr

/-- The mnemonic of an instruction's row in spec/opcode_table.json (30_encoding R71). -/
def Instr.mnemonic : Instr → String
  | .cls => "CLS"
  | .ret => "RET"
  | .jp _ => "JP"
  | .call _ => "CALL"
  | .seImm _ _ => "SE_IMM"
  | .sneImm _ _ => "SNE_IMM"
  | .seReg _ _ => "SE_REG"
  | .ldImm _ _ => "LD_IMM"
  | .addImm _ _ => "ADD_IMM"
  | .ldReg _ _ => "LD_REG"
  | .or _ _ => "OR"
  | .and _ _ => "AND"
  | .xor _ _ => "XOR"
  | .addReg _ _ => "ADD_REG"
  | .sub _ _ => "SUB"
  | .shr _ _ => "SHR"
  | .subn _ _ => "SUBN"
  | .shl _ _ => "SHL"
  | .sneReg _ _ => "SNE_REG"
  | .ldI _ => "LD_I"
  | .jpV0 _ => "JP_V0"
  | .rnd _ _ => "RND"
  | .drw _ _ _ => "DRW"
  | .skp _ => "SKP"
  | .sknp _ => "SKNP"
  | .ldVDt _ => "LD_V_DT"
  | .ldVK _ => "LD_V_K"
  | .ldDtV _ => "LD_DT_V"
  | .ldStV _ => "LD_ST_V"
  | .ldIV _ => "LD_I_V"
  | .ldF _ => "LD_F"
  | .ldB _ => "LD_B"
  | .ldMemV _ => "LD_MEM_V"
  | .ldVMem _ => "LD_V_MEM"

end Sys2Proof
end

