-- ==== Sys2Proof/WellFormed.lean ====
section
/-! DEFINITION. Which words are instructions: the opcode table (30_encoding R71) and the checks that refuse the
words of R73. An `Instr` is well-formed by its type (log 15), so the checks are about instruction words. -/

namespace Sys2Proof

/-- One row of the opcode table: a word w is of the row when `w &&& mask = bits`. -/
structure OpcodeRow where
  mnemonic : String
  bits : Word
  mask : Word
  deriving DecidableEq, Repr

/-- The rows of spec/opcode_table.json, families 0 to 8 up to LD_IMM. -/
def opcodeRowsLow : List OpcodeRow :=
  [⟨"CLS", 0x00E0, 0xFFFF⟩,
   ⟨"RET", 0x00EE, 0xFFFF⟩,
   ⟨"JP", 0x1000, 0xF000⟩,
   ⟨"CALL", 0x2000, 0xF000⟩,
   ⟨"SE_IMM", 0x3000, 0xF000⟩,
   ⟨"SNE_IMM", 0x4000, 0xF000⟩,
   ⟨"SE_REG", 0x5000, 0xF00F⟩,
   ⟨"LD_IMM", 0x6000, 0xF000⟩,
   ⟨"ADD_IMM", 0x7000, 0xF000⟩]

/-- The rows of family 8. -/
def opcodeRowsAlu : List OpcodeRow :=
  [⟨"LD_REG", 0x8000, 0xF00F⟩,
   ⟨"OR", 0x8001, 0xF00F⟩,
   ⟨"AND", 0x8002, 0xF00F⟩,
   ⟨"XOR", 0x8003, 0xF00F⟩,
   ⟨"ADD_REG", 0x8004, 0xF00F⟩,
   ⟨"SUB", 0x8005, 0xF00F⟩,
   ⟨"SHR", 0x8006, 0xF00F⟩,
   ⟨"SUBN", 0x8007, 0xF00F⟩,
   ⟨"SHL", 0x800E, 0xF00F⟩]

/-- The rows of families 9 to F. -/
def opcodeRowsHigh : List OpcodeRow :=
  [⟨"SNE_REG", 0x9000, 0xF00F⟩,
   ⟨"LD_I", 0xA000, 0xF000⟩,
   ⟨"JP_V0", 0xB000, 0xF000⟩,
   ⟨"RND", 0xC000, 0xF000⟩,
   ⟨"DRW", 0xD000, 0xF000⟩,
   ⟨"SKP", 0xE09E, 0xF0FF⟩,
   ⟨"SKNP", 0xE0A1, 0xF0FF⟩,
   ⟨"LD_V_DT", 0xF007, 0xF0FF⟩,
   ⟨"LD_V_K", 0xF00A, 0xF0FF⟩,
   ⟨"LD_DT_V", 0xF015, 0xF0FF⟩,
   ⟨"LD_ST_V", 0xF018, 0xF0FF⟩,
   ⟨"LD_I_V", 0xF01E, 0xF0FF⟩,
   ⟨"LD_F", 0xF029, 0xF0FF⟩,
   ⟨"LD_B", 0xF033, 0xF0FF⟩,
   ⟨"LD_MEM_V", 0xF055, 0xF0FF⟩,
   ⟨"LD_V_MEM", 0xF065, 0xF0FF⟩]

/-- The opcode map of 30_encoding R71: 34 rows. -/
def opcodeTable : List OpcodeRow := opcodeRowsLow ++ opcodeRowsAlu ++ opcodeRowsHigh

/-- The word w is of the row r. -/
def OpcodeRow.covers (r : OpcodeRow) (w : Word) : Bool := w &&& r.mask == r.bits

/-- Family 0 holds 00E0 and 00EE only (R73, first row). -/
def wellFormed0 (w : Word) : Bool := w.extractLsb' 12 4 != 0#4 || w == 0x00E0#16 || w == 0x00EE#16

/-- Family 5 needs n = 0 (R73, second row). -/
def wellFormed5 (w : Word) : Bool := w.extractLsb' 12 4 != 5#4 || w.extractLsb' 0 4 == 0#4

/-- Family 8 needs n in 0 to 7 or n = E (R73, third row; R101). -/
def wellFormed8 (w : Word) : Bool :=
  w.extractLsb' 12 4 != 8#4 || [0#4, 1#4, 2#4, 3#4, 4#4, 5#4, 6#4, 7#4, 14#4].contains (w.extractLsb' 0 4)

/-- Family 9 needs n = 0 (R73, fourth row). -/
def wellFormed9 (w : Word) : Bool := w.extractLsb' 12 4 != 9#4 || w.extractLsb' 0 4 == 0#4

/-- Family E needs nn = 9E or A1 (R73, fifth row). -/
def wellFormedE (w : Word) : Bool :=
  w.extractLsb' 12 4 != 14#4 || [0x9E#8, 0xA1#8].contains (w.extractLsb' 0 8)

/-- Family F needs one of nine low bytes (R73, sixth row). -/
def wellFormedF (w : Word) : Bool :=
  w.extractLsb' 12 4 != 15#4 ||
    [0x07#8, 0x0A#8, 0x15#8, 0x18#8, 0x1E#8, 0x29#8, 0x33#8, 0x55#8, 0x65#8].contains (w.extractLsb' 0 8)

/-- The word is an instruction: it is none of the invalid words of R73. -/
def wellFormed (w : Word) : Bool :=
  wellFormed0 w && wellFormed5 w && wellFormed8 w && wellFormed9 w && wellFormedE w && wellFormedF w

end Sys2Proof
end

