-- ==== Sys2Proof/Decode.lean ====
section
/-! DEFINITION. Decoding (30_encoding R66 to R76) and, after it, the encoder, both from the encodings of R71. -/

namespace Sys2Proof

/-- f = W[15:12], the family selector (R67). -/
def fieldF (w : Word) : BitVec 4 := w.extractLsb' 12 4

/-- The register index x = W[11:8] (R67). -/
def fieldX (w : Word) : Reg := (w.extractLsb' 8 4).toFin

/-- The register index y = W[7:4] (R67). -/
def fieldY (w : Word) : Reg := (w.extractLsb' 4 4).toFin

/-- n = W[3:0] as the sub-opcode of families 5, 8 and 9 (R70). -/
def fieldN (w : Word) : BitVec 4 := w.extractLsb' 0 4

/-- n = W[3:0] as a row count (R68). -/
def fieldHeight (w : Word) : Height := (w.extractLsb' 0 4).toFin

/-- nn = W[7:0] (R67). -/
def fieldNN (w : Word) : Byte := w.extractLsb' 0 8

/-- nnn = W[11:0] (R67). -/
def fieldNNN (w : Word) : Addr12 := w.extractLsb' 0 12

/-- Family 0 matches the whole word (R70, R72). -/
def decode0 (w : Word) : Option Instr :=
  if w = 0x00E0#16 then some .cls
  else if w = 0x00EE#16 then some .ret
  else none

/-- Family 8 dispatches on n (R70, R72; C1). -/
def decode8 (w : Word) : Option Instr :=
  if fieldN w = 0x0#4 then some (.ldReg (fieldX w) (fieldY w))
  else if fieldN w = 0x1#4 then some (.or (fieldX w) (fieldY w))
  else if fieldN w = 0x2#4 then some (.and (fieldX w) (fieldY w))
  else if fieldN w = 0x3#4 then some (.xor (fieldX w) (fieldY w))
  else if fieldN w = 0x4#4 then some (.addReg (fieldX w) (fieldY w))
  else if fieldN w = 0x5#4 then some (.sub (fieldX w) (fieldY w))
  else if fieldN w = 0x6#4 then some (.shr (fieldX w) (fieldY w))
  else if fieldN w = 0x7#4 then some (.subn (fieldX w) (fieldY w))
  else if fieldN w = 0xE#4 then some (.shl (fieldX w) (fieldY w))
  else none

/-- Family E dispatches on nn (R70, R72). -/
def decodeE (w : Word) : Option Instr :=
  if fieldNN w = 0x9E#8 then some (.skp (fieldX w))
  else if fieldNN w = 0xA1#8 then some (.sknp (fieldX w))
  else none

/-- Family F dispatches on nn (R70, R72). -/
def decodeF (w : Word) : Option Instr :=
  if fieldNN w = 0x07#8 then some (.ldVDt (fieldX w))
  else if fieldNN w = 0x0A#8 then some (.ldVK (fieldX w))
  else if fieldNN w = 0x15#8 then some (.ldDtV (fieldX w))
  else if fieldNN w = 0x18#8 then some (.ldStV (fieldX w))
  else if fieldNN w = 0x1E#8 then some (.ldIV (fieldX w))
  else if fieldNN w = 0x29#8 then some (.ldF (fieldX w))
  else if fieldNN w = 0x33#8 then some (.ldB (fieldX w))
  else if fieldNN w = 0x55#8 then some (.ldMemV (fieldX w))
  else if fieldNN w = 0x65#8 then some (.ldVMem (fieldX w))
  else none

/-- Decode(W) of R72, total on all 65536 words: `none` is the raise of InvalidInstruction(W). -/
def decodeWord (w : Word) : Option Instr :=
  if fieldF w = 0x0#4 then decode0 w
  else if fieldF w = 0x1#4 then some (.jp (fieldNNN w))
  else if fieldF w = 0x2#4 then some (.call (fieldNNN w))
  else if fieldF w = 0x3#4 then some (.seImm (fieldX w) (fieldNN w))
  else if fieldF w = 0x4#4 then some (.sneImm (fieldX w) (fieldNN w))
  else if fieldF w = 0x5#4 then if fieldN w = 0#4 then some (.seReg (fieldX w) (fieldY w)) else none
  else if fieldF w = 0x6#4 then some (.ldImm (fieldX w) (fieldNN w))
  else if fieldF w = 0x7#4 then some (.addImm (fieldX w) (fieldNN w))
  else if fieldF w = 0x8#4 then decode8 w
  else if fieldF w = 0x9#4 then if fieldN w = 0#4 then some (.sneReg (fieldX w) (fieldY w)) else none
  else if fieldF w = 0xA#4 then some (.ldI (fieldNNN w))
  else if fieldF w = 0xB#4 then some (.jpV0 (fieldNNN w))
  else if fieldF w = 0xC#4 then some (.rnd (fieldX w) (fieldNN w))
  else if fieldF w = 0xD#4 then some (.drw (fieldX w) (fieldY w) (fieldHeight w))
  else if fieldF w = 0xE#4 then decodeE w
  else decodeF w

/-- Why bytes are no instruction. -/
inductive DecodeError where
  /-- InvalidInstruction(W) (R72, R73). -/
  | invalidInstruction (w : Word)
  /-- Fewer than two bytes: there is no whole word. The machine never meets it, since a fetch reads two bytes (R46). -/
  | truncated
  deriving DecidableEq, Repr

/-- The big-endian word of two bytes: W = hi * 256 + lo (20_memory R46, R47). -/
def wordOfBytes (hi lo : Byte) : Word := hi ++ lo

/-- Decoding from bytes, high byte first, with the bytes that are left (R66, R75: two bytes each). -/
def decode : List Byte → Except DecodeError (Instr × List Byte)
  | hi :: lo :: rest =>
    match decodeWord (wordOfBytes hi lo) with
    | some i => .ok (i, rest)
    | none => .error (.invalidInstruction (wordOfBytes hi lo))
  | _ => .error .truncated

/-- A word from its four nibbles f, x, y, n (R66, the bit layout). -/
def wordFXYN (f x y n : BitVec 4) : Word := f ++ x ++ y ++ n

/-- A word from f, x, nn (R66). -/
def wordFXNN (f x : BitVec 4) (nn : Byte) : Word := f ++ x ++ nn

/-- A word from f, nnn (R66). -/
def wordFNNN (f : BitVec 4) (nnn : Addr12) : Word := f ++ nnn

/-- The four bits of a register index or of a row count. -/
def nibble (r : Fin 16) : BitVec 4 := BitVec.ofFin r

/-- The word of an instruction (R71). -/
def encode : Instr → Word
  | .cls => 0x00E0#16
  | .ret => 0x00EE#16
  | .jp nnn => wordFNNN 0x1#4 nnn
  | .call nnn => wordFNNN 0x2#4 nnn
  | .seImm x nn => wordFXNN 0x3#4 (nibble x) nn
  | .sneImm x nn => wordFXNN 0x4#4 (nibble x) nn
  | .seReg x y => wordFXYN 0x5#4 (nibble x) (nibble y) 0x0#4
  | .ldImm x nn => wordFXNN 0x6#4 (nibble x) nn
  | .addImm x nn => wordFXNN 0x7#4 (nibble x) nn
  | .ldReg x y => wordFXYN 0x8#4 (nibble x) (nibble y) 0x0#4
  | .or x y => wordFXYN 0x8#4 (nibble x) (nibble y) 0x1#4
  | .and x y => wordFXYN 0x8#4 (nibble x) (nibble y) 0x2#4
  | .xor x y => wordFXYN 0x8#4 (nibble x) (nibble y) 0x3#4
  | .addReg x y => wordFXYN 0x8#4 (nibble x) (nibble y) 0x4#4
  | .sub x y => wordFXYN 0x8#4 (nibble x) (nibble y) 0x5#4
  | .shr x y => wordFXYN 0x8#4 (nibble x) (nibble y) 0x6#4
  | .subn x y => wordFXYN 0x8#4 (nibble x) (nibble y) 0x7#4
  | .shl x y => wordFXYN 0x8#4 (nibble x) (nibble y) 0xE#4
  | .sneReg x y => wordFXYN 0x9#4 (nibble x) (nibble y) 0x0#4
  | .ldI nnn => wordFNNN 0xA#4 nnn
  | .jpV0 nnn => wordFNNN 0xB#4 nnn
  | .rnd x nn => wordFXNN 0xC#4 (nibble x) nn
  | .drw x y n => wordFXYN 0xD#4 (nibble x) (nibble y) (nibble n)
  | .skp x => wordFXNN 0xE#4 (nibble x) 0x9E#8
  | .sknp x => wordFXNN 0xE#4 (nibble x) 0xA1#8
  | .ldVDt x => wordFXNN 0xF#4 (nibble x) 0x07#8
  | .ldVK x => wordFXNN 0xF#4 (nibble x) 0x0A#8
  | .ldDtV x => wordFXNN 0xF#4 (nibble x) 0x15#8
  | .ldStV x => wordFXNN 0xF#4 (nibble x) 0x18#8
  | .ldIV x => wordFXNN 0xF#4 (nibble x) 0x1E#8
  | .ldF x => wordFXNN 0xF#4 (nibble x) 0x29#8
  | .ldB x => wordFXNN 0xF#4 (nibble x) 0x33#8
  | .ldMemV x => wordFXNN 0xF#4 (nibble x) 0x55#8
  | .ldVMem x => wordFXNN 0xF#4 (nibble x) 0x65#8

/-- The two bytes of an instruction as memory holds them, high byte first (R66). -/
def encodeBytes (i : Instr) : List Byte := [(encode i).extractLsb' 8 8, (encode i).extractLsb' 0 8]

/-- The two bytes, as memory holds them, of the instruction whose table bits are the low `nbits` bits of w
(bits above `nbits` are zero; bit 0 is the word's least significant bit). -/
def tableWordBytes (nbits w : Nat) : List Byte :=
  let word : Word := BitVec.ofNat 16 (w % 2 ^ nbits)
  [word.extractLsb' 8 8, word.extractLsb' 0 8]

/-- What the decoder reads from an instruction whose bits, numbered as spec/opcode_table.json numbers them, are w. -/
def decodeTableWord (nbits w : Nat) : Option Instr :=
  match decode (tableWordBytes nbits w) with
  | .ok (i, _) => some i
  | .error _ => none

end Sys2Proof
end

