-- ==== Sys2Proof/Machine/Params.lean ====
section
/-! DEFINITION. The default values of the named parameters (00_scope R10, R11, R15 to R18). -/

namespace Sys2Proof.Machine

/-- Every parameter at its default, which is this engine's behaviour (00_scope R10, R11, R15 to R18; log 2, 4, 5, 6, 7). -/
def defaultParams : Params where
  fontBase := 0x050
  progBase := 0x200
  flagOrder := .flagLast
  glyphStride := .one
  shiftUsesVy := false
  jumpUsesVx := false
  fx1eAdds := false
  keySkipConsume := .always

end Sys2Proof.Machine
end

