-- ==== Sys2Proof/Machine/State.lean ====
section
/-! DEFINITION. The state of the machine as plain data (10_state), its reset value (10_state R40), and the reasons a
step can stop. -/

namespace Sys2Proof.Machine

/-- Memory as a list of (address, byte), addresses strictly rising, no listed byte 0 (log 22). -/
abbrev Memory := List Host.Cell

/-- The display buffer: 32 rows of 64 Booleans, row 0 at the top, column 0 at the left (10_state R34). -/
abbrev Display := Vector (Vector Bool 64) 32

/-- A logical key, 0x0 to 0xF (10_state R35). -/
abbrev Key := Fin 16

/-- The four engine-level faults with the info they record (60_exceptions R122). -/
inductive EngineFault where
  /-- An address outside memory is dereferenced; the first out-of-range address is recorded (R124). -/
  | outOfBounds (addr : Nat)
  /-- A word with no instruction; the word is recorded (R123). -/
  | invalidInstruction (word : Word)
  /-- 2nnn with 16 entries on the stack (R125). -/
  | stackOverflow
  /-- 00EE with an empty stack (R125). -/
  | stackUnderflow
  deriving DecidableEq, Repr

/-- The fault record of the mode Halted (60_exceptions R127). The code and the info are functions of the kind
(`faultCode`, `faultInfo` in Ops.lean; log 14). -/
structure FaultRecord where
  kind : EngineFault
  /-- P, the address the instruction was fetched from. -/
  addr : Word
  /-- W, absent for a fetch fault. -/
  word : Option Word
  deriving DecidableEq, Repr

/-- The engine mode (10_state R37). -/
inductive Mode where
  | running
  | halted (record : FaultRecord)
  deriving DecidableEq, Repr

/-- The timer actor's phase: where it stands within a tick (60_exceptions R134, R137) and whether it has stopped (R139; log 10). -/
inductive TimerPhase where
  /-- Between two ticks. -/
  | waiting
  /-- In a tick, both decrements still due. -/
  | bothDue
  /-- In a tick, only DecDelay still due. -/
  | delayDue
  /-- In a tick, only DecSound still due. -/
  | soundDue
  /-- The actor saw the termination signal at a period boundary (R139). -/
  | stopped
  deriving DecidableEq, Repr

/-- Who acts next: the atomic actions of the three agents (60_exceptions R134, R137, R141 to R144; log 9). -/
inductive Event where
  /-- The host calls the step port (R143). -/
  | runNextInstruction
  /-- The timer actor reaches a period boundary (R134, R139). -/
  | periodBoundary
  /-- DecDelay of the tick in progress (R134). -/
  | decDelay
  /-- DecSound of the tick in progress (R134). -/
  | decSound
  /-- The host calls set_current_key (R141). -/
  | setCurrentKey (key : Option Key)
  /-- The host calls request_exit (R141). -/
  | requestExit
  /-- The host calls get_display (R144). -/
  | getDisplay
  deriving DecidableEq, Repr

/-- The machine state: the tuple of 10_state, the timer actor's phase, and the model's own fields. -/
structure State where
  /-- MemoryImage (20_memory R42). -/
  mem : Memory
  /-- V0 to VF (10_state R21, R22). -/
  v : Vector Byte 16
  /-- The program counter (10_state R24). -/
  pc : Word
  /-- The index register (10_state R28). -/
  ir : Word
  /-- The call stack, its top the LAST entry (10_state R31, 41_control_flow R79). -/
  stack : List Word
  /-- DT, the delay timer (10_state R32). -/
  dt : Byte
  /-- ST, the sound timer (10_state R32, R33). -/
  st : Byte
  /-- DISP (10_state R34). -/
  disp : Display
  /-- KEY, `none` for no key (10_state R35). -/
  key : Option Key
  /-- EXIT (10_state R36). -/
  exit : Bool
  /-- Running or Halted (10_state R37). -/
  mode : Mode
  /-- The timer actor's phase (60_exceptions R134, R137, R139; log 10). -/
  timer : TimerPhase
  /-- The model's own: the named parameters, which no step changes (log 2). -/
  params : Params
  /-- The model's own: the part of the free interleaving still to come; empty: the host calls the step port (log 9). -/
  schedule : List Event
  /-- The model's own: how many random bytes have been drawn (log 8). -/
  draws : Nat
  deriving DecidableEq, Repr

/-- Why a step has no next state although the machine is modelled. -/
inductive Fault where
  /-- The step port was called in Halted, where no step exists (60_exceptions R128; U18: stuck). Raised by `runNext`
  only. Safe: the machine does nothing there (log 13). -/
  | halted (record : FaultRecord)
  deriving DecidableEq, Repr

/-- Why a step has no meaning. -/
inductive Refusal where
  /-- An instruction without a meaning yet, rejected by name in exec's arm. Safe. No arm answers it now. -/
  | notModelled (mnemonic : String)
  /-- refuse Unspecified of Fx29 with V[x] > 0xF (45_key_timer_fx R116, 60_exceptions R130). Raised by `execLdF`
  only. Safe: no claim can rest on a successor (log 17). -/
  | unspecifiedGlyph (v : Byte)
  deriving DecidableEq, Repr

/-- The outcome of one step of this machine. -/
abbrev Result := Host.Outcome State Fault Refusal

/-- The state after construction, before any load (10_state R40, 70_reset R151; log 1, 2, 8, 9, 10). -/
def State.reset : State where
  mem := []
  v := Vector.replicate 16 0
  pc := 0
  ir := 0
  stack := []
  dt := 0
  st := 0
  disp := Vector.replicate 32 (Vector.replicate 64 false)
  key := none
  exit := false
  mode := .running
  timer := .waiting
  params := defaultParams
  schedule := []
  draws := 0

end Sys2Proof.Machine
end

