-- ==== Sys2Proof/Machine/Ops.lean ====
section
/-! DEFINITION. The named operations over registers, memory and the display, and fault entry, the one way an
instruction raises a fault (60_exceptions R127). -/

namespace Sys2Proof.Machine

/-! ## State updates, one for each field -/

def State.setMem (s : State) (m : Memory) : State := { s with mem := m }
def State.setPc (s : State) (a : Word) : State := { s with pc := a }
def State.setIr (s : State) (a : Word) : State := { s with ir := a }
def State.setStack (s : State) (l : List Word) : State := { s with stack := l }
def State.setDt (s : State) (b : Byte) : State := { s with dt := b }
def State.setSt (s : State) (b : Byte) : State := { s with st := b }
def State.setDisp (s : State) (d : Display) : State := { s with disp := d }
def State.setKey (s : State) (k : Option Key) : State := { s with key := k }
def State.setExit (s : State) (e : Bool) : State := { s with exit := e }
def State.setMode (s : State) (m : Mode) : State := { s with mode := m }
def State.setTimer (s : State) (t : TimerPhase) : State := { s with timer := t }
def State.setSchedule (s : State) (l : List Event) : State := { s with schedule := l }
def State.setDraws (s : State) (n : Nat) : State := { s with draws := n }
def State.setRegs (s : State) (v : Vector Byte 16) : State := { s with v := v }

/-- V[x] (10_state R21). -/
def State.getV (s : State) (x : Reg) : Byte := s.v[x.val]

/-- V[x] <- b (10_state R21). -/
def State.setV (s : State) (x : Reg) (b : Byte) : State := { s with v := s.v.set x.val b }

/-! ## Memory -/

/-- What an address not listed reads as: memory is zero-filled at construction (10_state R40). -/
def Memory.unlisted : Byte := 0

/-- The byte at an address (20_memory R43, after its check). -/
def Memory.read : Memory → Nat → Byte
  | [], _ => Memory.unlisted
  | c :: rest, a => if c.1 = a then c.2 else Memory.read rest a

/-- The list with the cell (a, b) put in its place by address. -/
def Memory.insertCell (a : Nat) (b : Byte) : Memory → Memory
  | [] => [(a, b)]
  | c :: rest => if a < c.1 then (a, b) :: c :: rest else c :: Memory.insertCell a b rest

/-- mem[a] <- b (20_memory R44, after its check): the cell of a is replaced, and left out when b is what an unlisted
address reads as. -/
def Memory.write (m : Memory) (a : Nat) (b : Byte) : Memory :=
  if b = Memory.unlisted then m.filter (fun c => c.1 != a)
  else Memory.insertCell a b (m.filter (fun c => c.1 != a))

/-- The canonical form: addresses strictly rising and inside memory, no listed byte that reads as an unlisted one (log 22). -/
abbrev Memory.wf (m : Memory) : Prop :=
  m.Pairwise (fun c c' => c.1 < c'.1) ∧ ∀ c ∈ m, c.1 < memSize ∧ c.2 ≠ Memory.unlisted

/-- The bytes at base, base + 1, ..., `len` of them. -/
def Memory.readBytes (m : Memory) (base : Nat) : Nat → List Byte
  | 0 => []
  | len + 1 => m.read base :: m.readBytes (base + 1) len

/-- mem[base], mem[base + 1], ... <- bytes, in order. -/
def Memory.writeBytes (m : Memory) (base : Nat) : List Byte → Memory
  | [] => m
  | b :: bs => (m.write base b).writeBytes (base + 1) bs

/-- The first address of the range base, base + 1, ... (`len` addresses) that is outside memory (20_memory R45, R52). -/
def firstOutOfRange (base len : Nat) : Option Nat :=
  if len = 0 ∨ base + len ≤ memSize then none else some (max base memSize)

/-- V[i], V[i + 1], ... <- bytes, in order. -/
def writeRegs (v : Vector Byte 16) (i : Nat) : List Byte → Vector Byte 16
  | [] => v
  | b :: bs => writeRegs (v.setIfInBounds i b) (i + 1) bs

/-! ## The display -/

/-- DISP[r][c] (10_state R34). -/
def Display.pixel (d : Display) (r : Fin 32) (c : Fin 64) : Bool := (d[r.val])[c.val]

/-- DISP[r][c] <- NOT DISP[r][c] (44_index_random_draw R105). -/
def Display.flip (d : Display) (r : Fin 32) (c : Fin 64) : Display :=
  d.set r.val ((d[r.val]).set c.val (!(d[r.val])[c.val]))

/-- The cleared display: every pixel false (41_control_flow R78). -/
def Display.blank : Display := Vector.replicate 32 (Vector.replicate 64 false)

/-! ## The program counter -/

/-- pc <- pc + 2: the advance of the fetch (20_memory R46) and of a taken skip (42_skip_immediate R90). -/
def State.advance (s : State) : State := s.setPc (s.pc + 2)

/-- pc <- pc - 2: the rewind of Fx0A (45_key_timer_fx R115). -/
def State.rewind (s : State) : State := s.setPc (s.pc - 2)

/-- pc <- pc + 2 if the condition holds (42_skip_immediate R90). -/
def State.skipIf (s : State) (taken : Bool) : State := if taken then s.advance else s

/-! ## Fault entry -/

/-- The numeric code of a fault (60_exceptions R122). -/
def faultCode : EngineFault → Nat
  | .outOfBounds _ => 1
  | .invalidInstruction _ => 2
  | .stackOverflow => 3
  | .stackUnderflow => 4

/-- The info a fault records (60_exceptions R122). -/
def faultInfo : EngineFault → Option Nat
  | .outOfBounds a => some a
  | .invalidInstruction w => some w.toNat
  | .stackOverflow => none
  | .stackUnderflow => none

/-- The state that fault entry leaves, from the state before the step: mode Halted with the record, nothing else
(60_exceptions R127). -/
def State.haltWith (s : State) (f : EngineFault) (word : Option Word) : State :=
  s.setMode (.halted { kind := f, addr := s.pc, word := word })

/-- `raise F(info)` of a step that starts in s (60_exceptions R127). -/
def raise (f : EngineFault) (word : Option Word) (s : State) : Result := .next (s.haltWith f word)

/-- Complete with `done` if the `len` addresses from `base` are in memory, else raise OutOfBounds for the first that
is not (20_memory R52, 60_exceptions R124). -/
def completeInRange (base len : Nat) (i : Instr) (s done : State) : Result :=
  match firstOutOfRange base len with
  | some a => raise (.outOfBounds a) (some (encode i)) s
  | none => .next done

end Sys2Proof.Machine
end

