-- ==== Sys2Proof/Machine/Agents.lean ====
section
/-! DEFINITION. The actions of the timer actor and of the host, the two agents beside the execution actor
(60_exceptions R134 to R145). An action that is not enabled changes nothing (log 11). -/

namespace Sys2Proof.Machine

/-- The engine is in Halted (10_state R37). -/
def Mode.isHalted : Mode → Bool
  | .running => false
  | .halted _ => true

/-- The termination signal: EXIT, or the engine in Halted (60_exceptions R139). -/
def terminated (s : State) : Bool := s.exit || s.mode.isHalted

/-- A tick decrement: by one, never below 0 (60_exceptions R134, R135). -/
def decTimer (b : Byte) : Byte := if b = 0 then 0 else b - 1

/-- The timer actor at a period boundary, where it checks the signal: it begins a tick, or stops (R134, R139). -/
def periodBoundary (s : State) : State :=
  match s.timer with
  | .waiting => if terminated s then s.setTimer .stopped else s.setTimer .bothDue
  | .bothDue => s
  | .delayDue => s
  | .soundDue => s
  | .stopped => s

/-- DecDelay(), due once in each tick (R134). -/
def decDelay (s : State) : State :=
  match s.timer with
  | .waiting => s
  | .bothDue => (s.setDt (decTimer s.dt)).setTimer .soundDue
  | .delayDue => (s.setDt (decTimer s.dt)).setTimer .waiting
  | .soundDue => s
  | .stopped => s

/-- DecSound(), due once in each tick (R134). -/
def decSound (s : State) : State :=
  match s.timer with
  | .waiting => s
  | .bothDue => (s.setSt (decTimer s.st)).setTimer .delayDue
  | .delayDue => s
  | .soundDue => (s.setSt (decTimer s.st)).setTimer .waiting
  | .stopped => s

/-- set_current_key(k): KEY <- k (R141). In Halted the state does not change (R128; log 12). -/
def setCurrentKey (k : Option Key) (s : State) : State := if s.mode.isHalted then s else s.setKey k

/-- request_exit(): EXIT <- true (R141). In Halted the state does not change (R128; log 12). -/
def requestExit (s : State) : State := if s.mode.isHalted then s else s.setExit true

/-- get_display(): a copy of DISP, which changes no state (R144). -/
def getDisplay (s : State) : Display := s.disp

end Sys2Proof.Machine
end

