-- ==== Sys2Proof/Machine/Operands.lean ====
section
/-! DEFINITION. The operand forms: immediates, the registers and values that a parameter selects, and the derived
addresses (30_encoding R68, R69). -/

namespace Sys2Proof.Machine

/-- zext_16 of a 12-bit immediate (30_encoding R68). -/
def zextAddr (nnn : Addr12) : Word := nnn.zeroExtend 16

/-- zext_16 of a byte. -/
def zextByte (b : Byte) : Word := b.zeroExtend 16

/-- The register whose value Bnnn adds: V[0], or V[nnn[11:8]] under QUIRK_JUMP_USES_VX (41_control_flow R82). -/
def jumpOffsetReg (p : Params) (nnn : Addr12) : Reg :=
  if p.jumpUsesVx then (nnn.extractLsb' 8 4).toFin else 0

/-- The value that 8xy6 and 8xyE shift: V[x], or V[y] under QUIRK_SHIFT_USES_VY (43_alu R99, R100). -/
def shiftee (s : State) (x y : Reg) : Byte :=
  if s.params.shiftUsesVy then s.getV y else s.getV x

/-- The new ir of Fx1E: V[x], or (ir + V[x]) mod 65536 under QUIRK_FX1E_ADDS (45_key_timer_fx R114). -/
def indexFromReg (s : State) (x : Reg) : Word :=
  if s.params.fx1eAdds then s.ir + zextByte (s.getV x) else zextByte (s.getV x)

/-- FONT_GLYPH_STRIDE in bytes (00_scope R16). -/
def glyphStrideBytes : GlyphStride → Nat
  | .one => 1
  | .five => 5

/-- FONT_BASE + g * FONT_GLYPH_STRIDE with the glyph index g = V[x] (45_key_timer_fx R116, R117). -/
def glyphAddress (p : Params) (v : Byte) : Word :=
  BitVec.ofNat 16 (p.fontBase + v.toNat * glyphStrideBytes p.glyphStride)

/-- The value of a key as a register byte (45_key_timer_fx R115). -/
def keyByte (k : Key) : Byte := BitVec.ofNat 8 k.val

/-- k /= none and k = V[x]: none differs from every register value (45_key_timer_fx R108, R109). -/
def keyMatches (k : Option Key) (v : Byte) : Bool :=
  match k with
  | none => false
  | some k => keyByte k == v

/-- KEY after ConsumeKey(k), V[x] = v (45_key_timer_fx R110). -/
def keyAfterSkip (mode : KeySkipConsume) (k : Option Key) (v : Byte) : Option Key :=
  match mode with
  | .always => none
  | .onMatch => if keyMatches k v then none else k
  | .never => k

/-- The three decimal digits of a byte: hundreds, tens, ones (45_key_timer_fx R118). -/
def bcdDigits (v : Byte) : List Byte :=
  [BitVec.ofNat 8 (v.toNat / 100), BitVec.ofNat 8 (v.toNat / 10 % 10), BitVec.ofNat 8 (v.toNat % 10)]

/-- V[0], ..., V[x] (45_key_timer_fx R119). -/
def regsUpTo (s : State) (x : Reg) : List Byte := s.v.toList.take (x.val + 1)

/-- The column of a sprite's anchor: V[x] mod 64 (44_index_random_draw R105). -/
def anchorCol (v : Byte) : Nat := v.toNat % dispW

/-- The row of a sprite's anchor: V[y] mod 32 (44_index_random_draw R105). -/
def anchorRow (v : Byte) : Nat := v.toNat % dispH

end Sys2Proof.Machine
end

