-- ==== Sys2Proof/Machine/Flags.lean ====
section
/-! DEFINITION. The flag computations (10_state R29) and WriteRF (43_alu R91). -/

namespace Sys2Proof.Machine

/-- A flag value as VF holds it: 1 or 0. -/
def flagByte (f : Bool) : Byte := if f then 1 else 0

/-- Carry: the exact sum is above 255 (43_alu R96). -/
def carryOut (a b : Byte) : Bool := decide (a.toNat + b.toNat > 255)

/-- No borrow: minuend >= subtrahend (43_alu R97, R98). -/
def noBorrow (a b : Byte) : Bool := decide (a.toNat ≥ b.toNat)

/-- The bit that a right shift by 1 loses: bit 0 (43_alu R99). -/
def shiftedOutLow (a : Byte) : Bool := a.getLsbD 0

/-- The bit that a left shift by 1 loses: bit 7 (43_alu R100). -/
def shiftedOutHigh (a : Byte) : Bool := a.getLsbD 7

/-- WriteRF(r, f): the result to V[x] and the flag to VF, in the order FLAG_ORDER gives (43_alu R91). -/
def State.writeRF (s : State) (x : Reg) (r : Byte) (f : Bool) : State :=
  match s.params.flagOrder with
  | .flagLast => (s.setV x r).setV regF (flagByte f)
  | .flagFirst => (s.setV regF (flagByte f)).setV x r

end Sys2Proof.Machine
end

