-- ==== Sys2Proof/Machine/Alu.lean ====
section
/-! DEFINITION. The arithmetic and logic family 8 (43_alu). Operands are read before any write. -/

namespace Sys2Proof.Machine

/-- LD_REG, 8xy0 (R92). -/
def execLdReg (x y : Reg) (s : State) : Result := .next (s.advance.setV x (s.getV y))

/-- OR, 8xy1 (R93): VF is not reset. -/
def execOr (x y : Reg) (s : State) : Result := .next (s.advance.setV x (s.getV x ||| s.getV y))

/-- AND, 8xy2 (R94). -/
def execAnd (x y : Reg) (s : State) : Result := .next (s.advance.setV x (s.getV x &&& s.getV y))

/-- XOR, 8xy3 (R95). -/
def execXor (x y : Reg) (s : State) : Result := .next (s.advance.setV x (s.getV x ^^^ s.getV y))

/-- ADD_REG, 8xy4 (R96). -/
def execAddReg (x y : Reg) (s : State) : Result :=
  .next (s.advance.writeRF x (s.getV x + s.getV y) (carryOut (s.getV x) (s.getV y)))

/-- SUB, 8xy5 (R97). -/
def execSub (x y : Reg) (s : State) : Result :=
  .next (s.advance.writeRF x (s.getV x - s.getV y) (noBorrow (s.getV x) (s.getV y)))

/-- SHR, 8xy6 (R99). -/
def execShr (x y : Reg) (s : State) : Result :=
  .next (s.advance.writeRF x (shiftee s x y >>> 1) (shiftedOutLow (shiftee s x y)))

/-- SUBN, 8xy7 (R98). -/
def execSubn (x y : Reg) (s : State) : Result :=
  .next (s.advance.writeRF x (s.getV y - s.getV x) (noBorrow (s.getV y) (s.getV x)))

/-- SHL, 8xyE (R100). -/
def execShl (x y : Reg) (s : State) : Result :=
  .next (s.advance.writeRF x (shiftee s x y <<< 1) (shiftedOutHigh (shiftee s x y)))

end Sys2Proof.Machine
end

