-- ==== Sys2Proof/Machine/ControlFlow.lean ====
section
/-! DEFINITION. Control flow, families 0, 1, 2, B (41_control_flow). Each meaning starts from the state before the
step, pc = P; `advance` is the fetch's pc <- P + 2 (log 18). -/

namespace Sys2Proof.Machine

/-- CLS, 00E0 (R78). -/
def execCls (s : State) : Result := .next (s.advance.setDisp Display.blank)

/-- RET, 00EE (R79). -/
def execRet (s : State) : Result :=
  match s.stack.getLast? with
  | none => raise .stackUnderflow (some (encode .ret)) s
  | some t => .next ((s.advance.setStack s.stack.dropLast).setPc t)

/-- JP, 1nnn (R80). -/
def execJp (nnn : Addr12) (s : State) : Result := .next (s.advance.setPc (zextAddr nnn))

/-- CALL, 2nnn (R81): the pushed value is P + 2. The stack never holds more than 16 entries (log 20). -/
def execCall (nnn : Addr12) (s : State) : Result :=
  if stackDepth ≤ s.stack.length then raise .stackOverflow (some (encode (.call nnn))) s
  else .next ((s.advance.setStack (s.stack ++ [s.advance.pc])).setPc (zextAddr nnn))

/-- JP_V0, Bnnn (R82). -/
def execJpV0 (nnn : Addr12) (s : State) : Result :=
  .next (s.advance.setPc (zextAddr nnn + zextByte (s.getV (jumpOffsetReg s.params nnn))))

end Sys2Proof.Machine
end

