-- ==== Sys2Proof/Machine/IndexRandomDraw.lean ====
section
/-! DEFINITION. Index, random and draw, families A, C, D, and the sprite-blit unit (44_index_random_draw). -/

namespace Sys2Proof.Machine

/-- LD_I, Annn (R103). -/
def execLdI (nnn : Addr12) (s : State) : Result := .next (s.advance.setIr (zextAddr nnn))

/-- RND, Cxnn (R104): the next random byte is a free value (log 8). -/
def execRnd (x : Reg) (nn : Byte) (s : State) : Result :=
  .next ((s.advance.setV x (nn &&& Config.randomByte s.draws)).setDraws (s.draws + 1))

/-- What the blit carries from pixel to pixel: the display and `hit`, whether a pixel went from set to unset. -/
structure Blit where
  disp : Display
  hit : Bool
  deriving DecidableEq, Repr

/-- One sprite bit at row r, column c: a bit of 0 and a clipped position change nothing (R105, R106). -/
def plotBit (r c : Nat) (bit : Bool) (b : Blit) : Blit :=
  if h : r < 32 ∧ c < 64 then
    if bit then
      { disp := b.disp.flip ⟨r, h.1⟩ ⟨c, h.2⟩, hit := b.hit || b.disp.pixel ⟨r, h.1⟩ ⟨c, h.2⟩ }
    else b
  else b

/-- One sprite row at row r, from column cx: bit b of the byte goes to column cx + (7 - b), b from 7 down to 0 (R105). -/
def blitRow (cx r : Nat) (row : Byte) (b : Blit) : Blit :=
  [7, 6, 5, 4, 3, 2, 1, 0].foldl (fun b k => plotBit r (cx + (7 - k)) (row.getLsbD k) b) b

/-- The sprite rows in order, the first at row r (R105). -/
def blitRows (cx : Nat) : Nat → List Byte → Blit → Blit
  | _, [], b => b
  | r, row :: rows, b => blitRows cx (r + 1) rows (blitRow cx r row b)

/-- The rows of the sprite: the n bytes at ir (R105, R106). -/
def spriteRows (s : State) (n : Height) : List Byte := s.mem.readBytes s.ir.toNat n.val

/-- The blit of DRW on the state s (R105). -/
def drawBlit (s : State) (x y : Reg) (n : Height) : Blit :=
  blitRows (anchorCol (s.getV x)) (anchorRow (s.getV y)) (spriteRows s n) { disp := s.disp, hit := false }

/-- DRW, Dxyn (R105 to R107): every row is read before any pixel changes; VF is written once, last. -/
def execDrw (x y : Reg) (n : Height) (s : State) : Result :=
  completeInRange s.ir.toNat n.val (.drw x y n) s
    ((s.advance.setDisp (drawBlit s x y n).disp).setV regF (flagByte (drawBlit s x y n).hit))

/-- The sprite bit that falls on pixel (r, c) when the rows are drawn with their anchor at row cy, column cx: the same
layout said pixel by pixel (R106). -/
def spriteBit (cx cy : Nat) (rows : List Byte) (r c : Nat) : Bool :=
  decide (cy ≤ r ∧ cx ≤ c ∧ c < cx + 8) && (rows.getD (r - cy) 0).getLsbD (7 - (c - cx))

/-- The sprite bit that DRW on the state s plots at pixel (r, c) (R106). -/
def drawnBit (s : State) (x y : Reg) (n : Height) (r : Fin 32) (c : Fin 64) : Bool :=
  spriteBit (anchorCol (s.getV x)) (anchorRow (s.getV y)) (spriteRows s n) r.val c.val

end Sys2Proof.Machine
end

