-- ==== Sys2Proof/Machine/KeyTimerFx.lean ====
section
/-! DEFINITION. Keyboard, timers, index, font, BCD and register spill and fill, families E and F (45_key_timer_fx). -/

namespace Sys2Proof.Machine

/-- SKP, Ex9E (R108, R110). -/
def execSkp (x : Reg) (s : State) : Result :=
  .next ((s.advance.setKey (keyAfterSkip s.params.keySkipConsume s.key (s.getV x))).skipIf
    (keyMatches s.key (s.getV x)))

/-- SKNP, ExA1 (R109, R110). -/
def execSknp (x : Reg) (s : State) : Result :=
  .next ((s.advance.setKey (keyAfterSkip s.params.keySkipConsume s.key (s.getV x))).skipIf
    (!keyMatches s.key (s.getV x)))

/-- LD_V_DT, Fx07 (R111). -/
def execLdVDt (x : Reg) (s : State) : Result := .next (s.advance.setV x s.dt)

/-- LD_V_K, Fx0A (R115): with no key the pc is rewound to P. -/
def execLdVK (x : Reg) (s : State) : Result :=
  match s.key with
  | none => .next s.advance.rewind
  | some k => .next ((s.advance.setV x (keyByte k)).setKey none)

/-- LD_DT_V, Fx15 (R112). -/
def execLdDtV (x : Reg) (s : State) : Result := .next (s.advance.setDt (s.getV x))

/-- LD_ST_V, Fx18 (R113). -/
def execLdStV (x : Reg) (s : State) : Result := .next (s.advance.setSt (s.getV x))

/-- LD_I_V, Fx1E (R114). -/
def execLdIV (x : Reg) (s : State) : Result := .next (s.advance.setIr (indexFromReg s x))

/-- LD_F, Fx29 (R116, R117): V[x] > 0xF is refused, as the spec says (R130; log 17). -/
def execLdF (x : Reg) (s : State) : Result :=
  if 0xF < (s.getV x).toNat then .refused (.unspecifiedGlyph (s.getV x))
  else .next (s.advance.setIr (glyphAddress s.params (s.getV x)))

/-- LD_B, Fx33 (R118). -/
def execLdB (x : Reg) (s : State) : Result :=
  completeInRange s.ir.toNat 3 (.ldB x) s
    (s.advance.setMem (s.mem.writeBytes s.ir.toNat (bcdDigits (s.getV x))))

/-- LD_MEM_V, Fx55 (R119). -/
def execLdMemV (x : Reg) (s : State) : Result :=
  completeInRange s.ir.toNat (x.val + 1) (.ldMemV x) s
    (s.advance.setMem (s.mem.writeBytes s.ir.toNat (regsUpTo s x)))

/-- LD_V_MEM, Fx65 (R120). -/
def execLdVMem (x : Reg) (s : State) : Result :=
  completeInRange s.ir.toNat (x.val + 1) (.ldVMem x) s
    (s.advance.setRegs (writeRegs s.v 0 (s.mem.readBytes s.ir.toNat (x.val + 1))))

end Sys2Proof.Machine
end

