-- ==== Sys2Proof/Machine/SkipImmediate.lean ====
section
/-! DEFINITION. Conditional skips and immediate loads, families 3, 4, 5, 6, 7, 9 (42_skip_immediate). -/

namespace Sys2Proof.Machine

/-- SE_IMM, 3xnn (R84). -/
def execSeImm (x : Reg) (nn : Byte) (s : State) : Result := .next (s.advance.skipIf (s.getV x == nn))

/-- SNE_IMM, 4xnn (R85). -/
def execSneImm (x : Reg) (nn : Byte) (s : State) : Result := .next (s.advance.skipIf (s.getV x != nn))

/-- SE_REG, 5xy0 (R86). -/
def execSeReg (x y : Reg) (s : State) : Result := .next (s.advance.skipIf (s.getV x == s.getV y))

/-- SNE_REG, 9xy0 (R87). -/
def execSneReg (x y : Reg) (s : State) : Result := .next (s.advance.skipIf (s.getV x != s.getV y))

/-- LD_IMM, 6xnn (R88). -/
def execLdImm (x : Reg) (nn : Byte) (s : State) : Result := .next (s.advance.setV x nn)

/-- ADD_IMM, 7xnn (R89): modulo 256, no flag. -/
def execAddImm (x : Reg) (nn : Byte) (s : State) : Result := .next (s.advance.setV x (s.getV x + nn))

end Sys2Proof.Machine
end

