-- ==== Sys2Proof/Machine/Fetch.lean ====
section
/-! DEFINITION. The instruction fetch (20_memory R46, R47). -/

namespace Sys2Proof.Machine

/-- Fetch(): the big-endian word at P and P + 1, or OutOfBounds for the first of the two outside memory (R46, R124).
Its pc <- P + 2 is `advance`, the first action of every meaning (log 18). -/
def fetch (s : State) : Except EngineFault Word :=
  match firstOutOfRange s.pc.toNat 2 with
  | some a => .error (.outOfBounds a)
  | none => .ok (wordOfBytes (s.mem.read s.pc.toNat) (s.mem.read (s.pc.toNat + 1)))

end Sys2Proof.Machine
end

