-- ==== Sys2Proof/Machine/Cycle.lean ====
section
/-! DEFINITION. One step of the engine (30_encoding R65), the step port (60_exceptions R143), and who acts next
(60_exceptions R137, R142). -/

namespace Sys2Proof.Machine

/-- Step() in mode Running: fetch, decode, execute, with the fault arms of the fetch and of the decoder (30_encoding
R65; the order of the checks is 60_exceptions R129). -/
def engineStep (s : State) : Result :=
  match fetch s with
  | .error f => raise f none s
  | .ok w =>
    match decodeWord w with
    | none => raise (.invalidInstruction w) (some w) s
    | some i => exec i s

/-- run_next_instruction() (60_exceptions R143): one Step() in Running; in Halted there is no step (R128). -/
def runNext (s : State) : Result :=
  match s.mode with
  | .running => engineStep s
  | .halted r => .fault (.halted r)

/-- One atomic action of an agent (60_exceptions R134, R137, R141 to R144). -/
def act (e : Event) (s : State) : Result :=
  match e with
  | .runNextInstruction => runNext s
  | .periodBoundary => .next (periodBoundary s)
  | .decDelay => .next (decDelay s)
  | .decSound => .next (decSound s)
  | .setCurrentKey k => .next (setCurrentKey k s)
  | .requestExit => .next (requestExit s)
  | .getDisplay => .next s

/-- The next action of the schedule; with nothing scheduled the host calls the step port (log 9). -/
def cycle (s : State) : Result :=
  match s.schedule with
  | [] => runNext s
  | e :: rest => act e (s.setSchedule rest)

/-- The schedule with the step port called next (log 3). -/
def scheduleStepFirst : List Event → List Event
  | [] => []
  | .runNextInstruction :: rest => .runNextInstruction :: rest
  | e :: rest => .runNextInstruction :: e :: rest

/-- A pc from which an instruction can be fetched: the pc itself, or PROG_BASE's default where the fetch would be out of
bounds (log 3). -/
def fetchablePc (pc : Word) : Word :=
  if pc.toNat + 2 ≤ memSize then pc else BitVec.ofNat 16 defaultParams.progBase

/-- The state with the two bytes at its next fetch address, and what else its next step needs to run them (log 3). -/
def placeInstruction (bytes : List Byte) (s : State) : State :=
  (((s.setPc (fetchablePc s.pc)).setMem (s.mem.writeBytes (fetchablePc s.pc).toNat bytes)).setMode .running).setSchedule
    (scheduleStepFirst s.schedule)

end Sys2Proof.Machine
end

