-- ==== Sys2Proof/Machine/Step.lean ====
section
/-! DEFINITION. The step of the machine, and the placing of an instruction where the next step fetches it. -/

namespace Sys2Proof.Machine

/-- One step: the next action of the schedule, or a call of the step port (Cycle.lean). -/
def step (s : State) : Host.Outcome State Fault Refusal := cycle s

/-- s with the instruction whose table bits are w where the next step fetches (log 3). -/
def State.withFetchWord (s : State) (nbits w : Nat) : State := placeInstruction (tableWordBytes nbits w) s

end Sys2Proof.Machine
end

