-- ==== Sys2Proof/Machine/Loader.lean ====
section
/-! DEFINITION. The loader port and the boot sequence, which run before the first step (20_memory R55 to R57,
70_reset R152, R155; log 3, 19). -/

namespace Sys2Proof.Machine

/-- Why a load fails: it is reported to the host and the run does not begin (20_memory R57). -/
inductive LoadError where
  /-- offset + len(data) is above 4096 (R55). -/
  | outOfBounds (addr : Nat)
  deriving DecidableEq, Repr

/-- Load(data, offset, is_program) (20_memory R55). -/
def load (data : List Byte) (offset : Nat) (isProgram : Bool) (s : State) : Except LoadError State :=
  if memSize < offset + data.length then .error (.outOfBounds (offset + data.length))
  else if isProgram then .ok ((s.setMem (s.mem.writeBytes offset data)).setPc (BitVec.ofNat 16 offset))
  else .ok (s.setMem (s.mem.writeBytes offset data))

/-- The boot sequence: construct the engine, load the font, load the program (70_reset R152, steps 1 to 3). FONT_DATA is
80 bytes (00_scope R12; log 23). -/
def boot (p : Params) (font : Vector Byte 80) (program : List Byte) : Except LoadError State :=
  match load font.toList p.fontBase false { State.reset with params := p } with
  | .error e => .error e
  | .ok s => load program p.progBase true s

end Sys2Proof.Machine
end

