-- ==== Sys2Proof/Safety.lean ====
section
/-! DEFINITION. What claims speak of: the machine's invariant, legal parameters, executions with the weak fairness of
the timer actor (60_exceptions R138), and the two ends of a run (R140). -/

namespace Sys2Proof.Machine

/-- What a fault record says of the halted state (60_exceptions R122, R124, R125, R127). -/
def FaultRecord.fits (r : FaultRecord) (s : State) : Prop :=
  r.addr = s.pc ∧
  match r.kind with
  | .outOfBounds a => memSize ≤ a
  | .invalidInstruction w => r.word = some w ∧ wellFormed w = false
  | .stackOverflow => s.stack.length = stackDepth
  | .stackUnderflow => s.stack = []

/-- The invariant of the machine: memory in its canonical form; the stack within its depth and its entries at most 4096
(10_state R31); pc at most 0x10FE (10_state R26); in Halted, a record that fits the state (60_exceptions R127). -/
structure State.Inv (s : State) : Prop where
  memory : s.mem.wf
  stackDepth : s.stack.length ≤ stackDepth
  stackEntries : ∀ a ∈ s.stack, a.toNat ≤ memSize
  pcRange : s.pc.toNat ≤ 0x10FE
  record : ∀ r, s.mode = .halted r → r.fits s

/-- Parameters with which a boot can succeed: the font fits in memory (45_key_timer_fx R116) and the program's base is an
address or the end of memory (20_memory R55). -/
def Params.Bootable (p : Params) : Prop := p.fontBase + fontSize ≤ memSize ∧ p.progBase ≤ memSize

/-- The V registers that an instruction may write (10_state R23, the column "writes"; VF among them as the flag, R29). -/
def mayWriteReg : Instr → Reg → Bool
  | .cls, _ => false
  | .ret, _ => false
  | .jp _, _ => false
  | .call _, _ => false
  | .seImm _ _, _ => false
  | .sneImm _ _, _ => false
  | .seReg _ _, _ => false
  | .ldImm x _, r => r == x
  | .addImm x _, r => r == x
  | .ldReg x _, r => r == x
  | .or x _, r => r == x
  | .and x _, r => r == x
  | .xor x _, r => r == x
  | .addReg x _, r => r == x || r == regF
  | .sub x _, r => r == x || r == regF
  | .shr x _, r => r == x || r == regF
  | .subn x _, r => r == x || r == regF
  | .shl x _, r => r == x || r == regF
  | .sneReg _ _, _ => false
  | .ldI _, _ => false
  | .jpV0 _, _ => false
  | .rnd x _, r => r == x
  | .drw _ _ _, r => r == regF
  | .skp _, _ => false
  | .sknp _, _ => false
  | .ldVDt x, r => r == x
  | .ldVK x, r => r == x
  | .ldDtV _, _ => false
  | .ldStV _, _ => false
  | .ldIV _, _ => false
  | .ldF _, _ => false
  | .ldB _, _ => false
  | .ldMemV _, _ => false
  | .ldVMem x, r => decide (r ≤ x)

/-- How many bytes, from ir on, an instruction stores (20_memory R49): only Fx33 and Fx55 store. -/
def storedBytes : Instr → Nat
  | .cls => 0
  | .ret => 0
  | .jp _ => 0
  | .call _ => 0
  | .seImm _ _ => 0
  | .sneImm _ _ => 0
  | .seReg _ _ => 0
  | .ldImm _ _ => 0
  | .addImm _ _ => 0
  | .ldReg _ _ => 0
  | .or _ _ => 0
  | .and _ _ => 0
  | .xor _ _ => 0
  | .addReg _ _ => 0
  | .sub _ _ => 0
  | .shr _ _ => 0
  | .subn _ _ => 0
  | .shl _ _ => 0
  | .sneReg _ _ => 0
  | .ldI _ => 0
  | .jpV0 _ => 0
  | .rnd _ _ => 0
  | .drw _ _ _ => 0
  | .skp _ => 0
  | .sknp _ => 0
  | .ldVDt _ => 0
  | .ldVK _ => 0
  | .ldDtV _ => 0
  | .ldStV _ => 0
  | .ldIV _ => 0
  | .ldF _ => 0
  | .ldB _ => 3
  | .ldMemV x => x.val + 1
  | .ldVMem _ => 0

/-- The actions of a list, one after the other, stopping at the first that has no next state. -/
def actAll : List Event → State → Result
  | [], s => .next s
  | e :: es, s =>
    match act e s with
    | .next t => actAll es t
    | .fault f => .fault f
    | .refused r => .refused r

/-- The states σ 0, σ 1, ... are an infinite execution by the actions e 0, e 1, ... . -/
def IsExecution (σ : Nat → State) (e : Nat → Event) : Prop := ∀ n, act (e n) (σ n) = .next (σ (n + 1))

/-- The timer actor begins a tick at n. -/
def TickBegins (σ : Nat → State) (e : Nat → Event) (n : Nat) : Prop :=
  e n = .periodBoundary ∧ (σ n).timer = .waiting ∧ terminated (σ n) = false

/-- Something happens again and again. -/
def InfinitelyOften (p : Nat → Prop) : Prop := ∀ n, ∃ m, n ≤ m ∧ p m

/-- The weak fairness of the timer actor (60_exceptions R138, D20): while it has not stopped, infinitely many engine steps
come with infinitely many ticks. So with a termination signal, after which no tick begins (R139), it must come to its
period boundary and stop. -/
def WeaklyFair (σ : Nat → State) (e : Nat → Event) : Prop :=
  InfinitelyOften (fun n => e n = .runNextInstruction) → (∀ n, (σ n).timer ≠ .stopped) →
    InfinitelyOften (TickBegins σ e)

/-- A fault end of a run (60_exceptions R140): never a good end. -/
def State.FaultEnd (s : State) : Prop := ∃ r, s.mode = .halted r

/-- An exit end of a run: the host has set EXIT and stops calling the step port, at any time after (60_exceptions R140). -/
def State.ExitEnd (s : State) : Prop := s.mode = .running ∧ s.exit = true

end Sys2Proof.Machine
end

