-- ==== Sys2Proof/Certificates/Slice0/Obligations.lean ====
section
/-! DEFINITION. The statements for the provers. Each docstring says which rule of spec/ it formalises; OBLIGATIONS.json
holds the same list. -/

open Sys2Proof Sys2Proof.Machine

/-- Decoding the word of any instruction gives that instruction back. For every instruction, with every operand at
every value its field admits, Decode of its word (R71) is the instruction, and decoding its two bytes, high byte
first, gives the instruction and leaves the bytes that follow. No bit of an encoding is dropped. (The sub-opcode
fields of families 0, 5, 9 and E are the spec's decisions D12, D13, D14.) (R71, R72, 30_encoding section 3) -/
def Obligations.DecodeOfEncodeIsIdentity : Prop :=
  ∀ (i : Instr) (rest : List Byte),
    decodeWord (encode i) = some i ∧ decode (encodeBytes i ++ rest) = .ok (i, rest)

/-- Every word that decodes is the word of the instruction it decodes to. If Decode(W) is an instruction, the
instruction's word is W: each valid word has one meaning and no bit of it is ignored. So the word a fault record
holds (log 18) is the word fetched. (R71, R72, 30_encoding section 3) -/
def Obligations.EncodeOfDecodeIsIdentity : Prop :=
  ∀ (w : Word) (i : Instr), decodeWord w = some i → encode i = w

/-- A word decodes to the instruction whose opcode-map row covers it, and to none if no row does. For each of the
65536 words: if Decode gives an instruction, the opcode-map row with that instruction's mnemonic covers the word;
if it gives none, no row of the map covers the word. There is no hint, no reserved and no no-op word. (R71, R72,
R74) -/
def Obligations.DecodeFollowsOpcodeMap : Prop :=
  ∀ w : Word,
    match decodeWord w with
    | some i => ∃ r ∈ opcodeTable, r.mnemonic = i.mnemonic ∧ r.covers w = true
    | none => ∀ r ∈ opcodeTable, r.covers w = false

/-- No word is covered by two rows of the opcode map. Any two different rows of the opcode map have no word in common,
so decoding is unambiguous. (R71, opcode_table.json) -/
def Obligations.OpcodeRowsDoNotOverlap : Prop :=
  opcodeTable.Pairwise (fun r r' => ∀ w : Word, ¬ (r.covers w = true ∧ r'.covers w = true))

/-- The words that do not decode are exactly the six classes of R73. Decode(W) is no instruction exactly when W is in
one of the six classes of R73: family 0 other than 00E0 and 00EE; family 5 or 9 with n not 0; family 8 with n in
8, 9, A, B, C, D, F; family E with a low byte other than 9E and A1; family F with a low byte other than the nine
listed. The counts of R73 are not stated. Families 0, 5, 9 and E rest on the spec's decisions D12 to D14. (R73,
R70, R101) -/
def Obligations.InvalidWordsAreThoseOfTheSpec : Prop :=
  ∀ w : Word,
    decodeWord w = none ↔
      (w.extractLsb' 12 4 = 0x0#4 ∧ w ≠ 0x00E0#16 ∧ w ≠ 0x00EE#16) ∨
      (w.extractLsb' 12 4 = 0x5#4 ∧ w.extractLsb' 0 4 ≠ 0#4) ∨
      (w.extractLsb' 12 4 = 0x8#4 ∧ w.extractLsb' 0 4 ∈ [0x8#4, 0x9#4, 0xA#4, 0xB#4, 0xC#4, 0xD#4, 0xF#4]) ∨
      (w.extractLsb' 12 4 = 0x9#4 ∧ w.extractLsb' 0 4 ≠ 0#4) ∨
      (w.extractLsb' 12 4 = 0xE#4 ∧ w.extractLsb' 0 8 ∉ [0x9E#8, 0xA1#8]) ∨
      (w.extractLsb' 12 4 = 0xF#4 ∧
        w.extractLsb' 0 8 ∉ [0x07#8, 0x0A#8, 0x15#8, 0x18#8, 0x1E#8, 0x29#8, 0x33#8, 0x55#8, 0x65#8])

/-- One written-out word of each family decodes to the instruction it stands for. Words taken from the test vectors of
95_test_vectors.md, one for each family, decode to the instruction the vectors give, and words the vectors call
invalid decode to none. (R71, R73, 95_test_vectors L2) -/
def Obligations.SampleWordsDecode : Prop :=
  decodeWord 0x00E0 = some .cls ∧ decodeWord 0x00EE = some .ret ∧ decodeWord 0x1ABC = some (.jp 0xABC) ∧
    decodeWord 0x2300 = some (.call 0x300) ∧ decodeWord 0x3312 = some (.seImm 3 0x12) ∧
    decodeWord 0x4312 = some (.sneImm 3 0x12) ∧ decodeWord 0x5120 = some (.seReg 1 2) ∧
    decodeWord 0x6AFF = some (.ldImm 10 0xFF) ∧ decodeWord 0x7F01 = some (.addImm 15 0x01) ∧
    decodeWord 0x8125 = some (.sub 1 2) ∧ decodeWord 0x8127 = some (.subn 1 2) ∧ decodeWord 0x810E = some (.shl 1 0) ∧
    decodeWord 0x9120 = some (.sneReg 1 2) ∧ decodeWord 0xA300 = some (.ldI 0x300) ∧
    decodeWord 0xB312 = some (.jpV0 0x312) ∧ decodeWord 0xC30F = some (.rnd 3 0x0F) ∧
    decodeWord 0xD012 = some (.drw 0 1 2) ∧ decodeWord 0xE1A1 = some (.sknp 1) ∧ decodeWord 0xF265 = some (.ldVMem 2) ∧
    decodeWord 0x0123 = none ∧ decodeWord 0x5121 = none ∧ decodeWord 0x8128 = none ∧ decodeWord 0xE19F = none ∧
    decodeWord 0xF0FF = none

/-- The fetch reads hi * 256 + lo at P and P + 1, or faults on the first byte outside memory. If P + 1 is below 4096
the fetch gives the word hi * 256 + lo of the bytes at P (hi) and P + 1 (lo). If P is 4096 or above it raises
OutOfBounds(P); if P is 4095 it raises OutOfBounds(4096). The advance of pc by 2 is part of every meaning (log 18)
and is in the statement of each instruction. (R46, R47, R124) -/
def Obligations.FetchReadsBigEndianOrFaults : Prop :=
  ∀ s : State,
    (s.pc.toNat + 1 < 4096 → ∃ w, fetch s = .ok w ∧
      w.toNat = (s.mem.read s.pc.toNat).toNat * 256 + (s.mem.read (s.pc.toNat + 1)).toNat) ∧
    (4096 ≤ s.pc.toNat → fetch s = .error (.outOfBounds s.pc.toNat)) ∧
    (s.pc.toNat = 4095 → fetch s = .error (.outOfBounds 4096))

/-- A step runs the instruction decoded from the two bytes at the program counter. In Running, when the two bytes at
P, high byte first, are in memory and decode to an instruction i: with nothing scheduled a step is exec of i on
the state; with a call of the step port first in the schedule, it is exec of i on the state with that call taken
off the schedule. exec starts from pc = P and does the fetch's advance itself (log 18). The schedule is the
model's own (log 9). (R65, R143) -/
def Obligations.StepRunsDecodedInstruction : Prop :=
  ∀ (s : State) (i : Instr), s.mode = .running → s.pc.toNat + 2 ≤ 4096 →
    decode (s.mem.readBytes s.pc.toNat 2) = .ok (i, []) →
    (s.schedule = [] → step s = exec i s) ∧
    (∀ rest, s.schedule = .runNextInstruction :: rest → step s = exec i { s with schedule := rest })

/-- A step takes the first scheduled action of the timer actor or of the host. When the schedule begins with an action
other than a call of the step port, a step is that action, on the state with the action taken off the schedule:
the period boundary, a decrement, set_current_key, request_exit, or get_display, which changes nothing. The
schedule is the model's form of the free interleaving (log 9). (R134, R137, R141, R142, R144) -/
def Obligations.ScheduledActionHappens : Prop :=
  ∀ (s : State) (rest : List Event) (k : Option Key),
    (s.schedule = .periodBoundary :: rest → step s = .next (periodBoundary { s with schedule := rest })) ∧
    (s.schedule = .decDelay :: rest → step s = .next (decDelay { s with schedule := rest })) ∧
    (s.schedule = .decSound :: rest → step s = .next (decSound { s with schedule := rest })) ∧
    (s.schedule = .setCurrentKey k :: rest → step s = .next (setCurrentKey k { s with schedule := rest })) ∧
    (s.schedule = .requestExit :: rest → step s = .next (requestExit { s with schedule := rest })) ∧
    (s.schedule = .getDisplay :: rest → step s = .next { s with schedule := rest })

/-- Running an invalid word enters Halted with InvalidInstruction and writes nothing. When the step port runs in
Running and the fetch gives one of the invalid words of R73, the step enters Halted; the fault record has the kind
InvalidInstruction with the word and holds the word; nothing else of the state changes. The words of family 8 with
n in 8 to D or F are among them (R101). That nothing else changes is R127, the spec's decision D2 (log 13, log
16); that the other words of families 0, 5, 9 and E are invalid is its decisions D12 to D14. (R101, R123, R73,
R127) -/
def Obligations.InvalidInstructionHalts : Prop :=
  ∀ (s : State) (w : Word), s.mode = .running → fetch s = .ok w →
    (wellFormed w = false ∨
      (w.extractLsb' 12 4 = 0x8#4 ∧ w.extractLsb' 0 4 ∈ [0x8#4, 0x9#4, 0xA#4, 0xB#4, 0xC#4, 0xD#4, 0xF#4])) →
    ∃ r : FaultRecord, r.kind = .invalidInstruction w ∧ r.word = some w ∧
      runNext s = .next { s with mode := .halted r }

/-- A fetch outside memory enters Halted with OutOfBounds and no word. When the step port runs in Running and P + 1 is
not below 4096, the step enters Halted with OutOfBounds of the first of P and P + 1 that is outside memory, addr P
and the word absent; nothing else changes. The form of the record is the spec's decision D2. (R124, R127) -/
def Obligations.FetchOutOfBoundsHalts : Prop :=
  ∀ s : State, s.mode = .running → 4096 < s.pc.toNat + 2 →
    runNext s = .next { s with mode :=
      (.halted ⟨.outOfBounds (if 4096 ≤ s.pc.toNat then s.pc.toNat else s.pc.toNat + 1), s.pc, none⟩) }

/-- In Halted the step port takes no step. In Halted, whatever the rest of the state, the step port has no successor:
with nothing scheduled, or with a call of the step port first in the schedule, a step answers the fault halted
with the record (log 13). (R128, R143) -/
def Obligations.HaltedHasNoEngineStep : Prop :=
  ∀ (s : State) (r : FaultRecord), s.mode = .halted r →
    runNext s = .fault (.halted r) ∧ (s.schedule = [] → step s = .fault (.halted r)) ∧
    (∀ rest, s.schedule = .runNextInstruction :: rest → step s = .fault (.halted r))

/-- After a fault nothing changes but the decrements of a tick already begun. From a Halted state any step that has a
successor leaves everything but DT, ST, the timer actor's phase and the schedule as it was. DT changes only by a
scheduled DecDelay that is due in a tick already begun (phase bothDue or delayDue), which takes 1 from it; ST only
by a DecSound that is due (bothDue or soundDue). In the phases waiting and stopped both timers stay and no tick
begins. That host writes are ignored in Halted and that a begun tick completes is the model's reading of R128 and
R139 (log 12, the spec's decision D33), and the phases are its own (log 10). (R128, R139, R134) -/
def Obligations.HaltedStateDoesNotChange : Prop :=
  ∀ (s t : State) (r : FaultRecord), s.mode = .halted r → step s = .next t →
    t = { s with dt := t.dt, st := t.st, timer := t.timer, schedule := t.schedule } ∧
    (t.dt ≠ s.dt → (∃ rest, s.schedule = .decDelay :: rest) ∧ s.dt.toNat = t.dt.toNat + 1 ∧
      (s.timer = .bothDue ∧ t.timer = .soundDue ∨ s.timer = .delayDue ∧ t.timer = .waiting)) ∧
    (t.st ≠ s.st → (∃ rest, s.schedule = .decSound :: rest) ∧ s.st.toNat = t.st.toNat + 1 ∧
      (s.timer = .bothDue ∧ t.timer = .delayDue ∨ s.timer = .soundDue ∧ t.timer = .waiting)) ∧
    (s.timer = .waiting ∨ s.timer = .stopped →
      t.dt = s.dt ∧ t.st = s.st ∧ (t.timer = s.timer ∨ t.timer = .stopped))

/-- CLS makes every pixel false and changes nothing else but pc. 00E0 completes in every state: every pixel is false,
pc is P + 2, and V, ir, memory, the stack, the timers, KEY and all else are unchanged; run again it leaves the
same display. The word 0x00E0, and no other, decodes to it. (R78) -/
def Obligations.ClsClearsDisplay : Prop :=
  (∀ s : State, ∃ d : Display, (∀ r c, d.pixel r c = false) ∧
      exec .cls s = .next { s with disp := d, pc := s.pc + 2 } ∧
      exec .cls { s with disp := d, pc := s.pc + 2 } = .next { s with disp := d, pc := s.pc + 4 }) ∧
    (∀ w : Word, decodeWord w = some .cls ↔ w = 0x00E0)

/-- RET pops the last stack entry into pc, and underflows on an empty stack. 00EE with a stack l ++ [t] completes with
the stack l and pc = t, unchecked, and nothing else changed. With an empty stack it enters Halted with
StackUnderflow and nothing else changes. A pc of 4095 or 4096 makes the next fetch raise OutOfBounds. The word
0x00EE, and no other, decodes to it. (R79) -/
def Obligations.RetPopsOrUnderflows : Prop :=
  (∀ (s : State) (l : List Word) (t : Word), s.stack = l ++ [t] →
      exec .ret s = .next { s with stack := l, pc := t }) ∧
    (∀ s : State, s.stack = [] → ∃ r : FaultRecord, r.kind = .stackUnderflow ∧
      exec .ret s = .next { s with mode := .halted r }) ∧
    (∀ s : State, s.pc = 4095 ∨ s.pc = 4096 → fetch s = .error (.outOfBounds 4096)) ∧
    (∀ w : Word, decodeWord w = some .ret ↔ w = 0x00EE)

/-- JP sets pc to nnn and changes nothing else. 1nnn completes in every state with pc = nnn zero-extended and nothing
else changed; a jump to its own address leaves the state as it was; after a jump to 0xFFF the next fetch raises
OutOfBounds(0x1000). Every word of family 1 decodes to it. (R80) -/
def Obligations.JpSetsPc : Prop :=
  (∀ (s : State) (nnn : Addr12), exec (.jp nnn) s = .next { s with pc := nnn.setWidth 16 }) ∧
    (∀ (s : State) (nnn : Addr12), nnn.setWidth 16 = s.pc → exec (.jp nnn) s = .next s) ∧
    (∀ s : State, fetch { s with pc := (0xFFF : Addr12).setWidth 16 } = .error (.outOfBounds 0x1000)) ∧
    (∀ w : Word, w.extractLsb' 12 4 = 0x1#4 → decodeWord w = some (.jp (w.extractLsb' 0 12)))

/-- CALL pushes P + 2 and jumps, and overflows on a stack of 16 entries. 2nnn with fewer than 16 entries completes: P
+ 2 is appended to the stack, pc = nnn, nothing else changes. With 16 entries it enters Halted with StackOverflow
and leaves the stack and all else as it was, pc = P. Of 17 calls one after the other from an empty stack, 16
complete, each adding one entry, and the 17th halts with StackOverflow. Every word of family 2 decodes to it. That
the pushed value is P + 2 is the spec's decision D34, and that the overflow changes nothing else its D2 (log 16).
(R81, R31, R127, 92_eei_decisions D34) -/
def Obligations.CallPushesOrOverflows : Prop :=
  (∀ (s : State) (nnn : Addr12), s.stack.length < 16 →
      exec (.call nnn) s = .next { s with stack := s.stack ++ [s.pc + 2], pc := nnn.setWidth 16 }) ∧
    (∀ (s : State) (nnn : Addr12), s.stack.length = 16 → ∃ r : FaultRecord, r.kind = .stackOverflow ∧
      exec (.call nnn) s = .next { s with mode := .halted r }) ∧
    (∀ (σ : Nat → State) (n : Nat → Addr12), (σ 0).stack = [] →
      (∀ k ≤ 16, exec (.call (n k)) (σ k) = .next (σ (k + 1))) →
      (∀ k ≤ 16, (σ k).stack.length = k ∧ (σ k).mode = (σ 0).mode) ∧
        ∃ r : FaultRecord, r.kind = .stackOverflow ∧ σ 17 = { σ 16 with mode := .halted r }) ∧
    (∀ w : Word, w.extractLsb' 12 4 = 0x2#4 → decodeWord w = some (.call (w.extractLsb' 0 12)))

/-- JP_V0 sets pc to nnn plus V[0], or plus V[nnn[11:8]] under its quirk, without a mask. Bnnn completes in every
state with pc the exact sum of nnn and V[0] (QUIRK_JUMP_USES_VX false) or V[nnn[11:8]] (true), and nothing else
changed; the sum is not masked to 12 bits (the spec's decision D6) and fits in 16 bits. The quirk's true form is
D25. (R82, R17) -/
def Obligations.JpV0AddsOffset : Prop :=
  ∀ (s : State) (nnn : Addr12), ∃ t : Word, exec (.jpV0 nnn) s = .next { s with pc := t } ∧
    (s.params.jumpUsesVx = false → t.toNat = nnn.toNat + (s.getV 0).toNat) ∧
    (s.params.jumpUsesVx = true → t.toNat = nnn.toNat + (s.getV (nnn.extractLsb' 8 4).toFin).toNat)

/-- A RET that meets the stack its CALL left resumes after the call with the stack as before. When 2nnn completes from
a state in Running and a later state has the stack the call left, 00EE there completes with pc = P + 2 of the call
and the stack as it was before the call. (R79, R81, R83) -/
def Obligations.CallThenRetResumesAfterCall : Prop :=
  ∀ (s t u : State) (nnn : Addr12), s.mode = .running → exec (.call nnn) s = .next t → t.mode = .running →
    u.stack = t.stack → exec .ret u = .next { u with stack := s.stack, pc := s.pc + 2 }

/-- SE_IMM and SNE_IMM skip exactly when V[x] equals, differs from, nn. 3xnn and 4xnn complete in every state; pc is P
+ 4 if V[x] = nn (3xnn) or V[x] is not nn (4xnn), else P + 2; nothing else changes and memory is not read. Every
word of families 3 and 4 decodes to them. (R84, R85) -/
def Obligations.SkipOnImmediate : Prop :=
  (∀ (s : State) (x : Reg) (nn : Byte),
      exec (.seImm x nn) s = .next { s with pc := if s.getV x = nn then s.pc + 4 else s.pc + 2 } ∧
      exec (.sneImm x nn) s = .next { s with pc := if s.getV x = nn then s.pc + 2 else s.pc + 4 }) ∧
    (∀ w : Word,
      (w.extractLsb' 12 4 = 0x3#4 →
        decodeWord w = some (.seImm (w.extractLsb' 8 4).toFin (w.extractLsb' 0 8))) ∧
      (w.extractLsb' 12 4 = 0x4#4 →
        decodeWord w = some (.sneImm (w.extractLsb' 8 4).toFin (w.extractLsb' 0 8))))

/-- SE_REG and SNE_REG skip exactly when V[x] equals, differs from, V[y]. 5xy0 and 9xy0 complete in every state; pc is
P + 4 if V[x] = V[y] (5xy0) or if they differ (9xy0), else P + 2; nothing else changes. With x = y the first
always skips and the second never. A word of family 5 or 9 with n not 0 decodes to none (the spec's decision D13).
(R86, R87, R90) -/
def Obligations.SkipOnRegisters : Prop :=
  (∀ (s : State) (x y : Reg),
      exec (.seReg x y) s = .next { s with pc := if s.getV x = s.getV y then s.pc + 4 else s.pc + 2 } ∧
      exec (.sneReg x y) s = .next { s with pc := if s.getV x = s.getV y then s.pc + 2 else s.pc + 4 } ∧
      exec (.seReg x x) s = .next { s with pc := s.pc + 4 } ∧
      exec (.sneReg x x) s = .next { s with pc := s.pc + 2 }) ∧
    (∀ w : Word, (w.extractLsb' 12 4 = 0x5#4 ∨ w.extractLsb' 12 4 = 0x9#4) → w.extractLsb' 0 4 ≠ 0#4 →
      decodeWord w = none)

/-- LD_IMM loads nn; ADD_IMM adds nn modulo 256 and writes no flag. 6xnn and 7xnn complete in every state: V[x]
becomes nn, or (V[x] + nn) mod 256; pc is P + 2; no other register (VF included, unless x = F), no flag and
nothing else changes. Every word of families 6 and 7 decodes to them. (R88, R89) -/
def Obligations.LoadAndAddImmediate : Prop :=
  (∀ (s : State) (x : Reg) (nn : Byte),
      exec (.ldImm x nn) s = .next { s with v := s.v.set x.val nn, pc := s.pc + 2 } ∧
      exec (.addImm x nn) s = .next
        { s with v := s.v.set x.val (BitVec.ofNat 8 (((s.getV x).toNat + nn.toNat) % 256)), pc := s.pc + 2 }) ∧
    (∀ w : Word,
      (w.extractLsb' 12 4 = 0x6#4 →
        decodeWord w = some (.ldImm (w.extractLsb' 8 4).toFin (w.extractLsb' 0 8))) ∧
      (w.extractLsb' 12 4 = 0x7#4 →
        decodeWord w = some (.addImm (w.extractLsb' 8 4).toFin (w.extractLsb' 0 8))))

/-- LD_REG, OR, AND and XOR write their result to V[x] and no flag. 8xy0 to 8xy3 complete in every state: V[x] becomes
V[y], or each of its bits the OR, AND, XOR of the bits of V[x] and V[y]; pc is P + 2; VF is not reset and changes
only if x = F; nothing else changes. The words of family 8 with n = 0, 1, 2, 3 decode to them. (R92, R93, R94,
R95) -/
def Obligations.CopyAndBitwise : Prop :=
  (∀ (s : State) (x y : Reg), exec (.ldReg x y) s = .next { s with v := s.v.set x.val (s.getV y), pc := s.pc + 2 }) ∧
    (∀ (s : State) (x y : Reg), ∃ o a e : Byte,
      exec (.or x y) s = .next { s with v := s.v.set x.val o, pc := s.pc + 2 } ∧
      exec (.and x y) s = .next { s with v := s.v.set x.val a, pc := s.pc + 2 } ∧
      exec (.xor x y) s = .next { s with v := s.v.set x.val e, pc := s.pc + 2 } ∧
      ∀ k < 8, o.getLsbD k = ((s.getV x).getLsbD k || (s.getV y).getLsbD k) ∧
        a.getLsbD k = ((s.getV x).getLsbD k && (s.getV y).getLsbD k) ∧
        e.getLsbD k = ((s.getV x).getLsbD k ^^ (s.getV y).getLsbD k)) ∧
    (∀ w : Word, w.extractLsb' 12 4 = 0x8#4 →
      (w.extractLsb' 0 4 = 0#4 → decodeWord w = some (.ldReg (w.extractLsb' 8 4).toFin (w.extractLsb' 4 4).toFin)) ∧
      (w.extractLsb' 0 4 = 1#4 → decodeWord w = some (.or (w.extractLsb' 8 4).toFin (w.extractLsb' 4 4).toFin)) ∧
      (w.extractLsb' 0 4 = 2#4 → decodeWord w = some (.and (w.extractLsb' 8 4).toFin (w.extractLsb' 4 4).toFin)) ∧
      (w.extractLsb' 0 4 = 3#4 → decodeWord w = some (.xor (w.extractLsb' 8 4).toFin (w.extractLsb' 4 4).toFin)))

/-- ADD_REG writes the sum modulo 256 to V[x] and the carry to VF. 8xy4 completes in every state: V[x] becomes (V[x] +
V[y]) mod 256 and VF 1 if the sum is above 255, else 0, both from the old values; pc is P + 2 and nothing else
changes. For x = F the one written last stays: the flag under FLAG_ORDER flag_last, the result under flag_first
(the spec's open parameter, decision D7). (R96, R91, R15) -/
def Obligations.AddRegWithCarry : Prop :=
  ∀ (s : State) (x y : Reg), ∃ r f : Byte,
    r.toNat = ((s.getV x).toNat + (s.getV y).toNat) % 256 ∧
    f.toNat = (if 255 < (s.getV x).toNat + (s.getV y).toNat then 1 else 0) ∧
    (s.params.flagOrder = .flagLast →
      exec (.addReg x y) s = .next { s with v := (s.v.set x.val r).set 15 f, pc := s.pc + 2 }) ∧
    (s.params.flagOrder = .flagFirst →
      exec (.addReg x y) s = .next { s with v := (s.v.set 15 f).set x.val r, pc := s.pc + 2 })

/-- SUB and SUBN write the difference modulo 256 to V[x] and the no-borrow flag to VF. 8xy5 and 8xy7 complete in every
state: V[x] becomes (V[x] - V[y]) mod 256, or (V[y] - V[x]) mod 256, and VF 1 if the minuend is at least the
subtrahend, else 0, from the old values; pc is P + 2 and nothing else changes. For x = F the one written last
stays, as FLAG_ORDER says (D7). (R97, R98, R91, R15) -/
def Obligations.SubtractsWithNoBorrow : Prop :=
  ∀ (s : State) (x y : Reg), ∃ r f r' f' : Byte,
    (r.toNat : Int) = ((s.getV x).toNat - (s.getV y).toNat : Int) % 256 ∧
    f.toNat = (if (s.getV y).toNat ≤ (s.getV x).toNat then 1 else 0) ∧
    (r'.toNat : Int) = ((s.getV y).toNat - (s.getV x).toNat : Int) % 256 ∧
    f'.toNat = (if (s.getV x).toNat ≤ (s.getV y).toNat then 1 else 0) ∧
    (s.params.flagOrder = .flagLast →
      exec (.sub x y) s = .next { s with v := (s.v.set x.val r).set 15 f, pc := s.pc + 2 } ∧
      exec (.subn x y) s = .next { s with v := (s.v.set x.val r').set 15 f', pc := s.pc + 2 }) ∧
    (s.params.flagOrder = .flagFirst →
      exec (.sub x y) s = .next { s with v := (s.v.set 15 f).set x.val r, pc := s.pc + 2 } ∧
      exec (.subn x y) s = .next { s with v := (s.v.set 15 f').set x.val r', pc := s.pc + 2 })

/-- SHR and SHL shift by one into V[x] and put the lost bit in VF. 8xy6 and 8xyE complete in every state. The value
shifted is V[x], or V[y] under QUIRK_SHIFT_USES_VY (D25). V[x] becomes its half rounded down, or its double modulo
256; VF becomes its old bit 0, or its old bit 7; pc is P + 2 and nothing else changes. For x = F the one written
last stays, as FLAG_ORDER says (D7). (R99, R100, R91, R17, R15) -/
def Obligations.ShiftsByOne : Prop :=
  ∀ (s : State) (x y : Reg), ∃ a r f r' f' : Byte,
    a = (if s.params.shiftUsesVy = true then s.getV y else s.getV x) ∧
    r.toNat = a.toNat / 2 ∧ f.toNat = a.toNat % 2 ∧ r'.toNat = a.toNat * 2 % 256 ∧ f'.toNat = a.toNat / 128 ∧
    (s.params.flagOrder = .flagLast →
      exec (.shr x y) s = .next { s with v := (s.v.set x.val r).set 15 f, pc := s.pc + 2 } ∧
      exec (.shl x y) s = .next { s with v := (s.v.set x.val r').set 15 f', pc := s.pc + 2 }) ∧
    (s.params.flagOrder = .flagFirst →
      exec (.shr x y) s = .next { s with v := (s.v.set 15 f).set x.val r, pc := s.pc + 2 } ∧
      exec (.shl x y) s = .next { s with v := (s.v.set 15 f').set x.val r', pc := s.pc + 2 })

/-- LD_I sets ir to nnn, unchecked, and changes nothing else. Annn completes in every state with ir = nnn zero-
extended, pc = P + 2 and nothing else changed. With ir = 0xFFF a later Fx33 faults on 0x1000 and a later Dxy1
completes without a fault. That this Fx33 changes the mode alone, the byte at 0xFFF not written, is R118 and R127,
the spec's decision D2 (whole-range check, precise fault; log 16). Every word of family A decodes to it. (R103,
R105, R118, R124, R127, 92_eei_decisions D2) -/
def Obligations.LdISetsIndex : Prop :=
  (∀ (s : State) (nnn : Addr12), exec (.ldI nnn) s = .next { s with ir := nnn.setWidth 16, pc := s.pc + 2 }) ∧
    (∀ (s : State) (x : Reg), s.ir = (0xFFF : Addr12).setWidth 16 → ∃ r : FaultRecord, r.kind = .outOfBounds 0x1000 ∧
      exec (.ldB x) s = .next { s with mode := .halted r }) ∧
    (∀ (s : State) (x y : Reg), s.ir = (0xFFF : Addr12).setWidth 16 → ∃ t, exec (.drw x y 1) s = .next t ∧
      t.mode = s.mode ∧ t.pc = s.pc + 2) ∧
    (∀ w : Word, w.extractLsb' 12 4 = 0xA#4 → decodeWord w = some (.ldI (w.extractLsb' 0 12)))

/-- RND writes nn AND a free byte to V[x], one draw for each execution. Cxnn completes in every state: V[x] becomes nn
AND the next random byte, a free value of which nothing is known (log 8), so that every bit clear in nn is clear
in the result; the draw is used up; pc is P + 2; nothing else changes. The statement holds for every value of the
free byte. (R104, R13) -/
def Obligations.RndMasksAFreeByte : Prop :=
  ∀ (s : State) (x : Reg) (nn : Byte), ∃ b : Byte,
    exec (.rnd x nn) s = .next { s with v := s.v.set x.val b, pc := s.pc + 2, draws := s.draws + 1 } ∧
    b = nn &&& Config.randomByte s.draws ∧ (∀ k, nn.getLsbD k = false → b.getLsbD k = false)

/-- DRW XORs the clipped sprite into the display and sets VF to the collision. Dxyn with n = 0 or its n rows inside
memory completes. Pixel (r, c) is toggled exactly if it lies in the sprite's rows cy to cy + n - 1 and columns cx
to cx + 7 and the bit 7 - (c - cx) of the byte at ir + (r - cy) is 1, with cx = V[x] mod 64 and cy = V[y] mod 32
from the old registers; positions outside the 64 by 32 grid are dropped. VF becomes 1 if some toggled pixel was
true before, else 0; pc is P + 2; ir, memory, every other register and all else are unchanged. (Rows read first:
the spec's decision D10; bit order: D11; n = 0: D9.) (R105, R106) -/
def Obligations.DrwTogglesPixelsAndReportsCollision : Prop :=
  ∀ (s : State) (x y : Reg) (n : Height), n.val = 0 ∨ s.ir.toNat + n.val ≤ 4096 →
    ∃ (d : Display) (f : Byte) (bit : Fin 32 → Fin 64 → Bool),
      exec (.drw x y n) s = .next { s with disp := d, v := s.v.set 15 f, pc := s.pc + 2 } ∧
      (∀ r c, bit r c = true ↔
        ∃ i j : Nat, i < n.val ∧ j < 8 ∧ r.val = (s.getV y).toNat % 32 + i ∧ c.val = (s.getV x).toNat % 64 + j ∧
          (s.mem.read (s.ir.toNat + i)).getLsbD (7 - j) = true) ∧
      (∀ r c, d.pixel r c = (s.disp.pixel r c ^^ bit r c)) ∧
      ((∃ r c, bit r c = true ∧ s.disp.pixel r c = true) → f = 1) ∧
      ((∀ r c, bit r c = true → s.disp.pixel r c = false) → f = 0)

/-- Drawing the same sprite twice at the same anchor restores the display. When Dxyn completes and a later Dxyn of the
same height draws at the same anchor on the display the first left, with the same ir and the same sprite bytes,
the display is what it was before the first draw. The second draw sets VF to 1 exactly if some pixel whose plotted
sprite bit is 1 was false before the first draw. (R107) -/
def Obligations.DrawingTwiceRestoresDisplay : Prop :=
  ∀ (s t u v : State) (x y x' y' : Reg) (n : Height),
    (n.val = 0 ∨ s.ir.toNat + n.val ≤ 4096) → exec (.drw x y n) s = .next t →
    u.disp = t.disp → u.ir = s.ir → (∀ i < n.val, u.mem.read (s.ir.toNat + i) = s.mem.read (s.ir.toNat + i)) →
    (u.getV x').toNat % 64 = (s.getV x).toNat % 64 → (u.getV y').toNat % 32 = (s.getV y).toNat % 32 →
    exec (.drw x' y' n) u = .next v →
    v.disp = s.disp ∧
      (v.getV regF = 1 ↔ ∃ r c, t.disp.pixel r c ≠ s.disp.pixel r c ∧ s.disp.pixel r c = false) ∧
      (v.getV regF = 0 ↔ ∀ r c, t.disp.pixel r c ≠ s.disp.pixel r c → s.disp.pixel r c = true)

/-- DRW, LD_B, LD_MEM_V and LD_V_MEM whose range leaves memory halt and write nothing. When a byte the instruction
would access is outside memory, Dxyn (n at least 1), Fx33, Fx55 and Fx65 enter Halted with OutOfBounds of the
first such address, max(ir, 4096), the address P and the instruction's word; no register, pixel or memory byte
changes. Checking the whole range first and the form of the record are the spec's decision D2. (R105, R118, R119,
R120, R124, R127) -/
def Obligations.MemoryInstructionsFaultOutOfRange : Prop :=
  ∀ (s : State) (x y : Reg) (n : Height),
    (n.val ≠ 0 → 4096 < s.ir.toNat + n.val → exec (.drw x y n) s = .next { s with mode :=
      (.halted ⟨.outOfBounds (max s.ir.toNat 4096), s.pc, some (encode (.drw x y n))⟩) }) ∧
    (4096 ≤ s.ir.toNat + 2 → exec (.ldB x) s = .next { s with mode :=
      (.halted ⟨.outOfBounds (max s.ir.toNat 4096), s.pc, some (encode (.ldB x))⟩) }) ∧
    (4096 ≤ s.ir.toNat + x.val → exec (.ldMemV x) s = .next { s with mode :=
      (.halted ⟨.outOfBounds (max s.ir.toNat 4096), s.pc, some (encode (.ldMemV x))⟩) }) ∧
    (4096 ≤ s.ir.toNat + x.val → exec (.ldVMem x) s = .next { s with mode :=
      (.halted ⟨.outOfBounds (max s.ir.toNat 4096), s.pc, some (encode (.ldVMem x))⟩) })

/-- SKP and SKNP skip on the key and consume it as KEY_SKIP_CONSUME says. Ex9E and ExA1 complete in every state. Ex9E
skips (pc = P + 4, else P + 2) if KEY is a key whose number is V[x]; ExA1 skips exactly when Ex9E does not, so
always with no key (the spec's decision D37). KEY becomes none under always, none on a match and unchanged
otherwise under on_match, and is unchanged under never (the open parameter, D15). Nothing else changes. (R108,
R109, R110, R18) -/
def Obligations.KeySkipsCompareAndConsume : Prop :=
  ∀ (s : State) (x : Reg), ∃ (hit : Bool) (k : Option Key),
    (hit = true ↔ ∃ k₀ : Key, s.key = some k₀ ∧ k₀.val = (s.getV x).toNat) ∧
    (s.params.keySkipConsume = .always → k = none) ∧
    (s.params.keySkipConsume = .onMatch → k = if hit then none else s.key) ∧
    (s.params.keySkipConsume = .never → k = s.key) ∧
    exec (.skp x) s = .next { s with key := k, pc := if hit then s.pc + 4 else s.pc + 2 } ∧
    exec (.sknp x) s = .next { s with key := k, pc := if hit then s.pc + 2 else s.pc + 4 }

/-- LD_V_K leaves the state as it was with no key, and takes the key otherwise. Fx0A completes in every state. With
KEY = none the state is exactly as before, pc = P, so the instruction runs again (the rewind, which the spec chose
in D24 over suspension). With a key, V[x] becomes its number, KEY becomes none, pc is P + 2 and nothing else
changes. (R115) -/
def Obligations.WaitForKeyRewindsOrTakes : Prop :=
  ∀ (s : State) (x : Reg),
    (s.key = none → exec (.ldVK x) s = .next s) ∧
    (∀ k : Key, s.key = some k → ∃ b : Byte, b.toNat = k.val ∧
      exec (.ldVK x) s = .next { s with v := s.v.set x.val b, key := none, pc := s.pc + 2 })

/-- LD_V_DT reads DT into V[x]; LD_DT_V and LD_ST_V write V[x] to DT and to ST. Fx07, Fx15 and Fx18 complete in every
state: V[x] becomes DT, DT becomes V[x], ST becomes V[x]; pc is P + 2 and nothing else changes: the timer actor's
phase, so the place in the period, is not reset. The next DecDelay after an Fx15 takes DT to V[x] - 1, or leaves
0, in whichever phase the write falls: at once where it is due (bothDue, delayDue), after the DecSound still due
and the next period boundary (soundDue), after the next period boundary (waiting); a stopped actor makes none. The
same holds of DecSound after an Fx18. Each is one access in one step. Their words decode to them. The phases are
the model's (log 10, DEDUCED from R134, R137 and R139), and so is that an action not due changes nothing (log 11).
(R111, R112, R113, R134, R137, R139) -/
def Obligations.TimerInstructions : Prop :=
  (∀ (s : State) (x : Reg),
      exec (.ldVDt x) s = .next { s with v := s.v.set x.val s.dt, pc := s.pc + 2 } ∧
      exec (.ldDtV x) s = .next { s with dt := s.getV x, pc := s.pc + 2 } ∧
      exec (.ldStV x) s = .next { s with st := s.getV x, pc := s.pc + 2 }) ∧
    (∀ (s t : State) (x : Reg), exec (.ldDtV x) s = .next t →
      (t.timer = .bothDue ∨ t.timer = .delayDue → (decDelay t).dt.toNat = (s.getV x).toNat - 1) ∧
      (t.timer = .soundDue → terminated t = false → decDelay t = t ∧
        (decDelay (periodBoundary (decSound t))).dt.toNat = (s.getV x).toNat - 1) ∧
      (t.timer = .waiting → terminated t = false → decDelay t = t ∧
        (decDelay (periodBoundary t)).dt.toNat = (s.getV x).toNat - 1) ∧
      (t.timer = .stopped → decDelay (periodBoundary t) = t ∧ decDelay t = t)) ∧
    (∀ (s t : State) (x : Reg), exec (.ldStV x) s = .next t →
      (t.timer = .bothDue ∨ t.timer = .soundDue → (decSound t).st.toNat = (s.getV x).toNat - 1) ∧
      (t.timer = .delayDue → terminated t = false → decSound t = t ∧
        (decSound (periodBoundary (decDelay t))).st.toNat = (s.getV x).toNat - 1) ∧
      (t.timer = .waiting → terminated t = false → decSound t = t ∧
        (decSound (periodBoundary t)).st.toNat = (s.getV x).toNat - 1) ∧
      (t.timer = .stopped → decSound (periodBoundary t) = t ∧ decSound t = t)) ∧
    (∀ w : Word, w.extractLsb' 12 4 = 0xF#4 →
      (w.extractLsb' 0 8 = 0x07#8 → decodeWord w = some (.ldVDt (w.extractLsb' 8 4).toFin)) ∧
      (w.extractLsb' 0 8 = 0x15#8 → decodeWord w = some (.ldDtV (w.extractLsb' 8 4).toFin)) ∧
      (w.extractLsb' 0 8 = 0x18#8 → decodeWord w = some (.ldStV (w.extractLsb' 8 4).toFin)))

/-- LD_I_V sets ir to V[x], or adds V[x] to it modulo 65536 under its quirk. Fx1E completes in every state: ir becomes
V[x] zero-extended (QUIRK_FX1E_ADDS false) or (ir + V[x]) mod 65536 (true, the spec's D25), pc is P + 2, VF and
all else are unchanged. (R114, R17) -/
def Obligations.LdIVSetsIndex : Prop :=
  ∀ (s : State) (x : Reg), ∃ a : Word, exec (.ldIV x) s = .next { s with ir := a, pc := s.pc + 2 } ∧
    (s.params.fx1eAdds = false → a.toNat = (s.getV x).toNat) ∧
    (s.params.fx1eAdds = true → a.toNat = (s.ir.toNat + (s.getV x).toNat) % 65536)

/-- LD_F sets ir to FONT_BASE plus V[x] times the stride for V[x] up to 0xF, and is refused above. Fx29 with V[x] at
most 0xF and a FONT_BASE whose 80 font bytes fit in memory completes: ir is the exact FONT_BASE + V[x] *
FONT_GLYPH_STRIDE (1 or 5, the open parameter D17), pc is P + 2 and nothing else changes. With V[x] above 0xF it
is refused and has no successor: the spec refuses the case (R116, R130, decision D16; log 17). (R116, R117, R130,
R16) -/
def Obligations.LdFPointsAtGlyphOrIsRefused : Prop :=
  ∀ (s : State) (x : Reg),
    ((s.getV x).toNat ≤ 0xF → s.params.fontBase + 80 ≤ 4096 →
      ∃ a : Word, exec (.ldF x) s = .next { s with ir := a, pc := s.pc + 2 } ∧
        (s.params.glyphStride = .one → a.toNat = s.params.fontBase + (s.getV x).toNat) ∧
        (s.params.glyphStride = .five → a.toNat = s.params.fontBase + (s.getV x).toNat * 5)) ∧
    (0xF < (s.getV x).toNat → exec (.ldF x) s = .refused (.unspecifiedGlyph (s.getV x)))

/-- LD_B stores the three decimal digits of V[x] at ir, ir + 1, ir + 2. Fx33 with ir + 2 inside memory completes: the
bytes at ir, ir + 1, ir + 2 become digits h, t, o of at most 9, h at most 2, with V[x] = 100 h + 10 t + o; every
other address reads as before; pc is P + 2 and nothing else, ir included, changes. (R118, R52) -/
def Obligations.LdBStoresDecimalDigits : Prop :=
  ∀ (s : State) (x : Reg), s.ir.toNat + 2 < 4096 →
    ∃ (m : Memory) (h t o : Nat), exec (.ldB x) s = .next { s with mem := m, pc := s.pc + 2 } ∧
      (s.getV x).toNat = 100 * h + 10 * t + o ∧ h ≤ 2 ∧ t ≤ 9 ∧ o ≤ 9 ∧
      (m.read s.ir.toNat).toNat = h ∧ (m.read (s.ir.toNat + 1)).toNat = t ∧ (m.read (s.ir.toNat + 2)).toNat = o ∧
      (∀ a, a < s.ir.toNat ∨ s.ir.toNat + 3 ≤ a → m.read a = s.mem.read a)

/-- LD_MEM_V stores V[0] to V[x] at ir to ir + x. Fx55 with ir + x inside memory completes: the byte at ir + i becomes
V[i] for each i up to x; every other address reads as before; pc is P + 2 and nothing else, ir included, changes.
(R119, R52) -/
def Obligations.LdMemVStoresRegisters : Prop :=
  ∀ (s : State) (x : Reg), s.ir.toNat + x.val < 4096 →
    ∃ m : Memory, exec (.ldMemV x) s = .next { s with mem := m, pc := s.pc + 2 } ∧
      (∀ i : Reg, i ≤ x → m.read (s.ir.toNat + i.val) = s.getV i) ∧
      (∀ a, a < s.ir.toNat ∨ s.ir.toNat + (x.val + 1) ≤ a → m.read a = s.mem.read a)

/-- LD_V_MEM loads V[0] to V[x] from ir to ir + x and writes no memory. Fx65 with ir + x inside memory completes: V[i]
becomes the byte at ir + i for each i up to x, every other register keeps its value, pc is P + 2, and nothing
else, ir and memory included, changes. (R120, R52) -/
def Obligations.LdVMemLoadsRegisters : Prop :=
  ∀ (s : State) (x : Reg), s.ir.toNat + x.val < 4096 →
    ∃ v : Vector Byte 16, exec (.ldVMem x) s = .next { s with v := v, pc := s.pc + 2 } ∧
      (∀ i : Reg, i ≤ x → v[i.val] = s.mem.read (s.ir.toNat + i.val)) ∧
      (∀ i : Reg, x < i → v[i.val] = s.getV i)

/-- Fx55 then Fx65 with the same x and ir restores V[0] to V[x]. When ir + x is inside memory and Fx55 completes, then
in any later state with the same ir whose bytes at ir to ir + x are those Fx55 left, Fx65 completes and leaves
V[0] to V[x] as they were before the Fx55, whatever the registers held in between. (R121) -/
def Obligations.StoreThenLoadRestoresRegisters : Prop :=
  ∀ (s t u : State) (x : Reg), s.ir.toNat + x.val < 4096 → exec (.ldMemV x) s = .next t → u.ir = s.ir →
    (∀ i : Reg, i ≤ x → u.mem.read (s.ir.toNat + i.val) = t.mem.read (s.ir.toNat + i.val)) →
    ∃ v : State, exec (.ldVMem x) u = .next v ∧ ∀ i : Reg, i ≤ x → v.getV i = s.getV i

/-- A faulting step changes the mode alone; its record holds P, the word, and the code and info of its kind. When the
engine steps from Running into Halted, the state is otherwise the state before the step, the record's addr is P,
and its word is absent if the fetch itself raised the recorded fault, else the word fetched at P. The record's
code and info are those of R122: 1 and an address of at least 4096 for OutOfBounds, 2 and the fetched word for
InvalidInstruction, 3 and none for StackOverflow, 4 and none for StackUnderflow. Precise faults are the spec's
decision D2, the codes its D3; that code and info follow from the kind is log 14, that the word is the
instruction's log 18. (R122, R127, R65, R129) -/
def Obligations.FaultEntryIsPrecise : Prop :=
  ∀ (s t : State) (r : FaultRecord), s.mode = .running → runNext s = .next t → t.mode = .halted r →
    t = { s with mode := .halted r } ∧ r.addr = s.pc ∧
    ((r.word = none ∧ fetch s = .error r.kind) ∨ ∃ w, r.word = some w ∧ fetch s = .ok w) ∧
    match r.kind with
    | .outOfBounds a => faultCode r.kind = 1 ∧ faultInfo r.kind = some a ∧ 4096 ≤ a
    | .invalidInstruction w => faultCode r.kind = 2 ∧ faultInfo r.kind = some w.toNat ∧ fetch s = .ok w
    | .stackOverflow => faultCode r.kind = 3 ∧ faultInfo r.kind = none
    | .stackUnderflow => faultCode r.kind = 4 ∧ faultInfo r.kind = none

/-- An instruction faults only by its own check, and always when the check fails. From Running, an instruction that
completes without a fault stays in Running; it enters Halted exactly when its own check fails: 00EE with an empty
stack (StackUnderflow), 2nnn with 16 or more entries (StackOverflow), Dxyn (n at least 1), Fx33, Fx55, Fx65 with
an address of their range outside memory (OutOfBounds of max(ir, 4096)). No other instruction faults. The record's
addr is P and its word the instruction's (R127, decision D2; log 18). R81, R122 and R125 say exactly 16 entries;
that a stack of more than 16, which no step makes, overflows too is the model's choice (log 20). (R122, R124,
R125, R127, R129) -/
def Obligations.OnlyOwnChecksFault : Prop :=
  ∀ (i : Instr) (s t : State), s.mode = .running → exec i s = .next t →
    t.mode = match i with
      | .ret => if s.stack = [] then .halted ⟨.stackUnderflow, s.pc, some 0x00EE⟩ else .running
      | .call nnn => if 16 ≤ s.stack.length then .halted ⟨.stackOverflow, s.pc, some (encode (.call nnn))⟩ else .running
      | .drw x y n => if n.val ≠ 0 ∧ 4096 < s.ir.toNat + n.val then
          .halted ⟨.outOfBounds (max s.ir.toNat 4096), s.pc, some (encode (.drw x y n))⟩ else .running
      | .ldB x => if 4096 ≤ s.ir.toNat + 2 then
          .halted ⟨.outOfBounds (max s.ir.toNat 4096), s.pc, some (encode (.ldB x))⟩ else .running
      | .ldMemV x => if 4096 ≤ s.ir.toNat + x.val then
          .halted ⟨.outOfBounds (max s.ir.toNat 4096), s.pc, some (encode (.ldMemV x))⟩ else .running
      | .ldVMem x => if 4096 ≤ s.ir.toNat + x.val then
          .halted ⟨.outOfBounds (max s.ir.toNat 4096), s.pc, some (encode (.ldVMem x))⟩ else .running
      | _ => .running

/-- Every instruction leaves pc as the table of R25 says. From Running, whenever an instruction answers a next state,
pc is: P if the step faulted; P + 4 or P + 2 for the six skips as their condition holds or fails; nnn for 1nnn and
2nnn; the popped entry for 00EE; nnn + V[0], or nnn + V[nnn[11:8]] under its quirk, for Bnnn; P for Fx0A with no
key; and P + 2 for every other instruction. The skip conditions are those of R84 to R87, R108 and R109; that Ex9E
never skips and ExA1 always skips with no key is the spec's decision D37, that a faulting step leaves P is R127,
its D2, that Bnnn is not masked its D6, its quirk's form D25 and the rewind of Fx0A D24 (log 16). This is about
exec: the faults of decode and of the fetch, which leave P too, stand in O10 and O11. (R25, R84, R85, R86, R87,
R108, R109, R127, 92_eei_decisions D37, 92_eei_decisions D2) -/
def Obligations.PcAfterEachInstruction : Prop :=
  ∀ (i : Instr) (s t : State), s.mode = .running → exec i s = .next t →
    t.pc = if t.mode = .running then
      match i with
      | .seImm x nn => if s.getV x = nn then s.pc + 4 else s.pc + 2
      | .sneImm x nn => if s.getV x ≠ nn then s.pc + 4 else s.pc + 2
      | .seReg x y => if s.getV x = s.getV y then s.pc + 4 else s.pc + 2
      | .sneReg x y => if s.getV x ≠ s.getV y then s.pc + 4 else s.pc + 2
      | .skp x => if s.key.map Fin.val = some (s.getV x).toNat then s.pc + 4 else s.pc + 2
      | .sknp x => if s.key.map Fin.val ≠ some (s.getV x).toNat then s.pc + 4 else s.pc + 2
      | .jp nnn => nnn.setWidth 16
      | .call nnn => nnn.setWidth 16
      | .ret => s.stack.getLastD 0
      | .jpV0 nnn => BitVec.ofNat 16 (nnn.toNat +
          (if s.params.jumpUsesVx = true then s.getV (nnn.extractLsb' 8 4).toFin else s.getV 0).toNat)
      | .ldVK _ => if s.key = none then s.pc else s.pc + 2
      | _ => s.pc + 2
    else s.pc

/-- An instruction writes no V register but those the access table names. For every instruction that answers a next
state, each V register outside the instruction's row of the access table (R23: V[x]; V[x] and VF for 8xy4 to 8xy7
and 8xyE; VF for Dxyn; V[0] to V[x] for Fx65; none for the rest) keeps its value; a faulting instruction writes
none, which is R127, the spec's decision D2 (log 16). So VF changes only by the flag writers of R29 and by
instructions that name it. (R23, R29, R127, 92_eei_decisions D2) -/
def Obligations.RegisterFrame : Prop :=
  ∀ (i : Instr) (s t : State) (r : Reg), exec i s = .next t → mayWriteReg i r = false ∨ t.mode ≠ s.mode →
    t.getV r = s.getV r

/-- No instruction changes a memory byte outside those it stores at ir. For every instruction that answers a next
state, every address outside the bytes it stores reads as before. Fx33 stores 3 bytes from ir and Fx55 x + 1 bytes
from ir; every other instruction, Fx65 among them, stores none, so that every address reads as before. A faulting
instruction stores nothing, which is R52 and R127, the spec's decision D2 (log 16). (R49, R51, R52, R127,
92_eei_decisions D2) -/
def Obligations.MemoryFrame : Prop :=
  ∀ (i : Instr) (s t : State) (a : Nat), exec i s = .next t →
    a < s.ir.toNat ∨ s.ir.toNat + storedBytes i ≤ a ∨ t.mode ≠ s.mode → t.mem.read a = s.mem.read a

/-- ir, the stack, the timers, the display, KEY and EXIT are written only by the instructions the spec names. For
every instruction that answers a next state: ir changes only by Annn, Fx1E, Fx29; the stack only by 2nnn and 00EE;
DT only by Fx15; ST only by Fx18; the display only by 00E0 and Dxyn; KEY only by Ex9E, ExA1, Fx0A, and then to
none; EXIT, the timer actor's phase, the parameters and the schedule by none; the count of random draws only by
Cxnn. (R28, R35 and R36 carry the spec's decisions D18, D15, D19.) (R28, R31, R32, R34, R35, R36) -/
def Obligations.SpecialStateFrame : Prop :=
  ∀ (i : Instr) (s t : State), exec i s = .next t →
    (t.ir = s.ir ∨ (∃ nnn, i = .ldI nnn) ∨ (∃ x, i = .ldIV x) ∨ ∃ x, i = .ldF x) ∧
    (t.stack = s.stack ∨ i = .ret ∨ ∃ nnn, i = .call nnn) ∧
    (t.dt = s.dt ∨ ∃ x, i = .ldDtV x) ∧ (t.st = s.st ∨ ∃ x, i = .ldStV x) ∧
    (t.disp = s.disp ∨ i = .cls ∨ ∃ x y n, i = .drw x y n) ∧
    (t.key = s.key ∨ (t.key = none ∧ ((∃ x, i = .skp x) ∨ (∃ x, i = .sknp x) ∨ ∃ x, i = .ldVK x))) ∧
    t.exit = s.exit ∧ t.timer = s.timer ∧ t.params = s.params ∧ t.schedule = s.schedule ∧
    (t.draws = s.draws ∨ ∃ x nn, i = .rnd x nn)

/-- Every step keeps the machine's invariant. If a state meets the invariant and a step answers a next state, that
state meets it: memory is in its canonical form with every listed address below 4096; the stack has at most 16
entries, each at most 4096; pc is at most 0x10FE; and in Halted the record's addr is pc and its fault fits the
state (an address of at least 4096; an invalid word, recorded; a full stack; an empty stack). It holds for every
parameter, schedule and agent's action. (R26, R31, R42, R127, R52) -/
def Obligations.StepKeepsInvariant : Prop :=
  ∀ s t : State, s.Inv → step s = .next t → t.Inv

/-- The state after construction meets the invariant. The reset state meets the invariant that every step keeps. Its
values other than memory are the spec's decision D1 (log 1). (R40, R26, R31) -/
def Obligations.ResetMeetsInvariant : Prop :=
  State.reset.Inv

/-- The state after construction is the one R40 lists. At reset every byte of memory reads 0, every V register is 0,
pc and ir are 0, the stack is empty, DT and ST are 0, every pixel is false, KEY is none, EXIT is false and the
mode is Running. Only the memory value is the source's; the others are the spec's decision D1 (log 1). (R40, R151) -/
def Obligations.ResetState : Prop :=
  (∀ a, State.reset.mem.read a = 0) ∧ (∀ r, State.reset.getV r = 0) ∧ State.reset.pc = 0 ∧ State.reset.ir = 0 ∧
    State.reset.stack = [] ∧ State.reset.dt = 0 ∧ State.reset.st = 0 ∧
    (∀ r c, State.reset.disp.pixel r c = false) ∧ State.reset.key = none ∧ State.reset.exit = false ∧
    State.reset.mode = .running

/-- A load copies its data, sets pc for a program, and fails whole if the data does not fit. load(data, offset) fails
with OutOfBounds(offset + len) if that is above 4096, and no state results; else the byte at offset + i becomes
data[i], every other address reads as before, pc becomes the offset for a program load and stays for a font load,
and nothing else changes. A load of length 0 at an offset of at most 4096 succeeds and changes no byte. That the
check comes before any copy is the spec's decision D22, and that a failed load is an error with no state is the
model's choice (log 19). (R55, R57, 92_eei_decisions D22) -/
def Obligations.LoadCopiesOrFails : Prop :=
  (∀ (s : State) (data : List Byte) (offset : Nat) (p : Bool), 4096 < offset + data.length →
      load data offset p s = .error (.outOfBounds (offset + data.length))) ∧
    (∀ (s : State) (data : List Byte) (offset : Nat) (p : Bool), offset + data.length ≤ 4096 → ∃ m : Memory,
      load data offset p s = .ok { s with mem := m, pc := if p then BitVec.ofNat 16 offset else s.pc } ∧
      (∀ i, (h : i < data.length) → m.read (offset + i) = data[i]) ∧
      (∀ a, a < offset ∨ offset + data.length ≤ a → m.read a = s.mem.read a)) ∧
    (∀ (s : State) (offset : Nat), offset ≤ 4096 → load [] offset false s = .ok s)

/-- After boot the program is at PROG_BASE, the font at FONT_BASE, pc = PROG_BASE and all else as at reset. With a
font that fits and a program that fits from PROG_BASE, boot succeeds: pc is PROG_BASE; a program byte reads at
PROG_BASE + i, a font byte at FONT_BASE + i where the program does not overlap it, 0 elsewhere; everything else is
as at reset with the given parameters. The order of the loads and the overlap are the spec's decision D22, the
reset values D1. (R152, R153, R41, R56) -/
def Obligations.BootLeavesProgramAndFont : Prop :=
  ∀ (p : Params) (font : Vector Byte 80) (program : List Byte),
    p.fontBase + 80 ≤ 4096 → p.progBase + program.length ≤ 4096 →
    ∃ m : Memory, boot p font program =
        .ok { State.reset with params := p, mem := m, pc := BitVec.ofNat 16 p.progBase } ∧
      (∀ i, (h : i < program.length) → m.read (p.progBase + i) = program[i]) ∧
      (∀ i, (h : i < 80) → (p.fontBase + i < p.progBase ∨ p.progBase + program.length ≤ p.fontBase + i) →
        m.read (p.fontBase + i) = font[i]) ∧
      (∀ a, (a < p.progBase ∨ p.progBase + program.length ≤ a) → (a < p.fontBase ∨ p.fontBase + 80 ≤ a) → m.read a = 0)

/-- A tick takes 1 from each timer that is above 0, in either order of its two decrements. At a period boundary with
no termination signal the waiting timer actor begins a tick; its two atomic decrements, in either order, take DT
to DT - 1 and ST to ST - 1, a timer at 0 staying at 0, and then the actor waits again; nothing else changes. Each
decrement is its own step of the actor, and done twice within one tick it decrements once. That the two come in
either order, as separate actions, is R137, the spec's decision D20; the phases and that an action not due changes
nothing are the model's (log 10, log 11, DEDUCED). (R134, R135, R137, R139) -/
def Obligations.TickDecrementsEachTimerOnce : Prop :=
  ∀ s : State, s.timer = .waiting → s.exit = false → s.mode = .running → ∃ d e : Byte,
    d.toNat = s.dt.toNat - 1 ∧ e.toNat = s.st.toNat - 1 ∧
    decSound (decDelay (periodBoundary s)) = { s with dt := d, st := e } ∧
    decDelay (decSound (periodBoundary s)) = { s with dt := d, st := e } ∧
    decDelay (periodBoundary s) = { s with dt := d, timer := .soundDue } ∧
    decSound (periodBoundary s) = { s with st := e, timer := .delayDue } ∧
    decDelay (decDelay (periodBoundary s)) = decDelay (periodBoundary s) ∧
    decSound (decSound (periodBoundary s)) = decSound (periodBoundary s)

/-- The timer actor changes DT and ST and nothing else of the core. Whatever sequence of the timer actor's actions
happens (period boundaries, decrements, in any order), it completes, and memory, registers, pc, ir, the stack, the
display, KEY, EXIT, the mode, the parameters and the schedule are as before: only DT and ST (and the actor's own
phase) can differ, and neither timer rises (R134, R135). That every action completes, one that is not due changing
nothing, is the model's log 11, and the phase that may differ its log 10 (both DEDUCED). (R145, R134, R135, R139) -/
def Obligations.TimerActorReachesTimersOnly : Prop :=
  ∀ (es : List Event) (s : State), (∀ e ∈ es, e = .periodBoundary ∨ e = .decDelay ∨ e = .decSound) →
    ∃ t, actAll es s = .next t ∧ t = { s with dt := t.dt, st := t.st, timer := t.timer } ∧
      t.dt.toNat ≤ s.dt.toNat ∧ t.st.toNat ≤ s.st.toNat

/-- set_current_key writes KEY, request_exit sets EXIT, and neither changes anything else. In Running,
set_current_key(k) writes KEY for any of the 16 keys and none, and request_exit() sets EXIT; everything else is
unchanged. (R141) -/
def Obligations.KeyboardPortWritesKeyAndExit : Prop :=
  ∀ (s : State) (k : Option Key), s.mode = .running →
    act (.setCurrentKey k) s = .next { s with key := k } ∧ act .requestExit s = .next { s with exit := true }

/-- The host's actions between steps cannot change V, pc, ir, the stack, memory or a timer. Whatever sequence of
set_current_key, request_exit and get_display the host performs, it completes and only KEY and EXIT can differ;
EXIT, once true, stays true. The list of the host's liberties is the spec's decision D21. (R142, R144) -/
def Obligations.HostCannotChangeCoreState : Prop :=
  ∀ (es : List Event) (s : State),
    (∀ e ∈ es, (∃ k, e = .setCurrentKey k) ∨ e = .requestExit ∨ e = .getDisplay) →
    ∃ t, actAll es s = .next t ∧ t = { s with key := t.key, exit := t.exit } ∧ (s.exit = true → t.exit = true)

/-- After the termination signal each timer loses at most 1 by the timer actor, and a stopped actor does nothing. From
a state with the termination signal (EXIT, or Halted), any sequence of the timer actor's and the host's actions
takes at most 1 from DT and at most 1 from ST; if no tick had begun it takes nothing; and a stopped actor's
actions change nothing. This is the spec's decision D33 as log 10 and 12 read it. (R139) -/
def Obligations.AtMostOneTickFollowsTermination : Prop :=
  (∀ (es : List Event) (s t : State), (∀ e ∈ es, e ≠ .runNextInstruction) → terminated s = true →
      actAll es s = .next t →
      s.dt.toNat ≤ t.dt.toNat + 1 ∧ s.st.toNat ≤ t.st.toNat + 1 ∧
        (s.timer = .waiting → t.dt = s.dt ∧ t.st = s.st)) ∧
    (∀ s : State, s.timer = .stopped → periodBoundary s = s ∧ decDelay s = s ∧ decSound s = s)

/-- DT never rises except by Fx15. Across any action of any agent, DT does not rise unless the action is a step of the
engine in which the word fetched is an Fx15. (R159, R135) -/
def Obligations.DelayTimerRisesOnlyByLdDtV : Prop :=
  ∀ (e : Event) (s t : State), act e s = .next t →
    t.dt.toNat ≤ s.dt.toNat ∨
      (e = .runNextInstruction ∧ ∃ w x, fetch s = .ok w ∧ decodeWord w = some (.ldDtV x) ∧ t.dt = s.getV x)

/-- No step clears EXIT, changes a parameter or leaves Halted. Across any step: EXIT, once set, stays set (R36,
decision D19); the named parameters stay as they are (they are the model's own field, log 2); and a Halted mode
stays, with its record (R128). (R36, R15, R18) -/
def Obligations.ExitIsStickyAndParamsAreFixed : Prop :=
  ∀ s t : State, step s = .next t →
    (s.exit = true → t.exit = true) ∧ t.params = s.params ∧ (∀ r, s.mode = .halted r → t.mode = .halted r)

/-- No instruction can learn the value of ST or EXIT. Take any state and change its ST, its EXIT and the timer actor's
phase to anything. The engine's step then answers alike in both: the same fault or refusal, or next states that
agree on everything but ST, EXIT and that phase. So ST drives nothing in the core (the spec's decision D35) and no
instruction reads EXIT (D19). (R33, R36, R32) -/
def Obligations.SoundTimerAndExitAreInvisible : Prop :=
  ∀ (s : State) (b : Byte) (e : Bool) (p : TimerPhase),
    match engineStep s, engineStep { s with st := b, exit := e, timer := p } with
    | .next t, .next t' => t' = { t with st := t'.st, exit := e, timer := p } ∧ (t'.st = b ∨ t'.st = t.st)
    | .refused r, .refused r' => r = r'
    | .fault f, .fault f' => f = f'
    | _, _ => False

/-- In a weakly fair execution DT reaches 0 if it is not raised, and the timer actor stops after a termination signal.
Take any infinite execution, by any interleaving of the agents' actions, that is weakly fair to the timer actor
(R138, decision D20) and in which the engine steps infinitely often. If a termination signal ever comes, the actor
stops at some point, so it is never left within a tick. If the actor never stops and no step raises DT, then from
every point on DT is 0 at some later point, so a loop that polls DT with Fx07 ends. And an actor that has not
stopped at the start never stops where no termination signal comes. Where a tick counts as taken is the model's
reading (log 27), and so are the actor's phases (log 10). (R138, R134, R136, R139, 92_eei_decisions D20) -/
def Obligations.DelayTimerReachesZeroWhenFair : Prop :=
  ∀ (σ : Nat → State) (e : Nat → Event), IsExecution σ e → WeaklyFair σ e →
    InfinitelyOften (fun n => e n = .runNextInstruction) →
    ((∃ n, terminated (σ n) = true) → ∃ m, (σ m).timer = .stopped) ∧
    ((∀ n, (σ n).timer ≠ .stopped) → (∀ n, (σ (n + 1)).dt.toNat ≤ (σ n).dt.toNat) →
      ∀ n, ∃ m, n ≤ m ∧ (σ m).dt = 0) ∧
    ((σ 0).timer ≠ .stopped → (∀ n, terminated (σ n) = false) → ∀ n, (σ n).timer ≠ .stopped)
end

