-- ==== Sys2Proof/Laws/Decode.lean ====
section
/-! SUPPORT. The bits of an assembled word and the fields cut from it (30_encoding R66, R67). -/

namespace Sys2Proof

/-! ## Bits of assembled words -/

theorem getLsbD_wordFXYN (f x y n : BitVec 4) (i : Nat) :
    (wordFXYN f x y n).getLsbD i =
      if i < 4 then n.getLsbD i else if i < 8 then y.getLsbD (i - 4)
      else if i < 12 then x.getLsbD (i - 8) else f.getLsbD (i - 12) := by
  refine (BitVec.getLsbD_append (x := f ++ x ++ y) (y := n) (i := i)).trans ?_
  rw [BitVec.getLsbD_append, BitVec.getLsbD_append]
  split
  · rfl
  · have h4 : (i - 4 < 4) = (i < 8) := by rw [eq_iff_iff]; omega
    have h8 : (i - 8 < 4) = (i < 12) := by rw [eq_iff_iff]; omega
    simp only [h4, h8, Nat.sub_sub, Nat.reduceAdd]

theorem getLsbD_wordFXNN (f x : BitVec 4) (nn : Byte) (i : Nat) :
    (wordFXNN f x nn).getLsbD i =
      if i < 8 then nn.getLsbD i else if i < 12 then x.getLsbD (i - 8) else f.getLsbD (i - 12) := by
  refine (BitVec.getLsbD_append (x := f ++ x) (y := nn) (i := i)).trans ?_
  rw [BitVec.getLsbD_append]
  split
  · rfl
  · have h8 : (i - 8 < 4) = (i < 12) := by rw [eq_iff_iff]; omega
    simp only [h8, Nat.sub_sub]

theorem getLsbD_wordFNNN (f : BitVec 4) (nnn : Addr12) (i : Nat) :
    (wordFNNN f nnn).getLsbD i = if i < 12 then nnn.getLsbD i else f.getLsbD (i - 12) :=
  BitVec.getLsbD_append (x := f) (y := nnn) (i := i)

/-! ## Fields of assembled words -/

theorem extract_eq {len : Nat} {w : Word} {start : Nat} {a : BitVec len}
    (h : ∀ i < len, w.getLsbD (start + i) = a.getLsbD i) : w.extractLsb' start len = a := by
  apply BitVec.eq_of_getLsbD_eq
  intro i hi
  rw [BitVec.getLsbD_extractLsb', h i hi]
  simp [hi]

@[simp] theorem fieldF_wordFXYN (f x y n : BitVec 4) : fieldF (wordFXYN f x y n) = f :=
  extract_eq fun i hi => by
    rw [getLsbD_wordFXYN, if_neg (by omega), if_neg (by omega), if_neg (by omega), Nat.add_sub_cancel_left]

@[simp] theorem fieldN_wordFXYN (f x y n : BitVec 4) : fieldN (wordFXYN f x y n) = n :=
  extract_eq fun i hi => by rw [getLsbD_wordFXYN, if_pos (by omega), Nat.zero_add]

@[simp] theorem fieldX_wordFXYN (f y n : BitVec 4) (x : Reg) : fieldX (wordFXYN f (nibble x) y n) = x := by
  have : (wordFXYN f (nibble x) y n).extractLsb' 8 4 = nibble x := extract_eq fun i hi => by
    rw [getLsbD_wordFXYN, if_neg (by omega), if_neg (by omega), if_pos (by omega), Nat.add_sub_cancel_left]
  unfold fieldX
  rw [this]
  rfl

@[simp] theorem fieldY_wordFXYN (f x n : BitVec 4) (y : Reg) : fieldY (wordFXYN f x (nibble y) n) = y := by
  have : (wordFXYN f x (nibble y) n).extractLsb' 4 4 = nibble y := extract_eq fun i hi => by
    rw [getLsbD_wordFXYN, if_neg (by omega), if_pos (by omega), Nat.add_sub_cancel_left]
  unfold fieldY
  rw [this]
  rfl

@[simp] theorem fieldHeight_wordFXYN (f x y : BitVec 4) (n : Height) : fieldHeight (wordFXYN f x y (nibble n)) = n := by
  have : (wordFXYN f x y (nibble n)).extractLsb' 0 4 = nibble n := extract_eq fun i hi => by
    rw [getLsbD_wordFXYN, if_pos (by omega), Nat.zero_add]
  unfold fieldHeight
  rw [this]
  rfl

@[simp] theorem fieldF_wordFXNN (f x : BitVec 4) (nn : Byte) : fieldF (wordFXNN f x nn) = f :=
  extract_eq fun i hi => by
    rw [getLsbD_wordFXNN, if_neg (by omega), if_neg (by omega), Nat.add_sub_cancel_left]

@[simp] theorem fieldX_wordFXNN (f : BitVec 4) (x : Reg) (nn : Byte) : fieldX (wordFXNN f (nibble x) nn) = x := by
  have : (wordFXNN f (nibble x) nn).extractLsb' 8 4 = nibble x := extract_eq fun i hi => by
    rw [getLsbD_wordFXNN, if_neg (by omega), if_pos (by omega), Nat.add_sub_cancel_left]
  unfold fieldX
  rw [this]
  rfl

@[simp] theorem fieldNN_wordFXNN (f x : BitVec 4) (nn : Byte) : fieldNN (wordFXNN f x nn) = nn :=
  extract_eq fun i hi => by rw [getLsbD_wordFXNN, if_pos (by omega), Nat.zero_add]

@[simp] theorem fieldF_wordFNNN (f : BitVec 4) (nnn : Addr12) : fieldF (wordFNNN f nnn) = f :=
  extract_eq fun i hi => by rw [getLsbD_wordFNNN, if_neg (by omega), Nat.add_sub_cancel_left]

@[simp] theorem fieldNNN_wordFNNN (f : BitVec 4) (nnn : Addr12) : fieldNNN (wordFNNN f nnn) = nnn :=
  extract_eq fun i hi => by rw [getLsbD_wordFNNN, if_pos (by omega), Nat.zero_add]

/-! ## Reassembling a word from its fields -/

theorem wordFXYN_fields (w : Word) :
    wordFXYN (fieldF w) (nibble (fieldX w)) (nibble (fieldY w)) (fieldN w) = w := by
  apply BitVec.eq_of_getLsbD_eq
  intro i hi
  have hX : nibble (fieldX w) = w.extractLsb' 8 4 := rfl
  have hY : nibble (fieldY w) = w.extractLsb' 4 4 := rfl
  rw [getLsbD_wordFXYN, hX, hY]
  simp only [fieldN, fieldF, BitVec.getLsbD_extractLsb']
  split
  · next h => simp [h]
  · split
    · next h1 h2 =>
      have h3 : i - 4 < 4 := by omega
      simp [h3, show 4 + (i - 4) = i by omega]
    · split
      · have h3 : i - 8 < 4 := by omega
        simp [h3, show 8 + (i - 8) = i by omega]
      · have h3 : i - 12 < 4 := by omega
        simp [h3, show 12 + (i - 12) = i by omega]

theorem wordFXNN_fields (w : Word) : wordFXNN (fieldF w) (nibble (fieldX w)) (fieldNN w) = w := by
  apply BitVec.eq_of_getLsbD_eq
  intro i hi
  have hX : nibble (fieldX w) = w.extractLsb' 8 4 := rfl
  rw [getLsbD_wordFXNN, hX]
  simp only [fieldNN, fieldF, BitVec.getLsbD_extractLsb']
  split
  · next h => simp [h]
  · split
    · have h3 : i - 8 < 4 := by omega
      simp [h3, show 8 + (i - 8) = i by omega]
    · have h3 : i - 12 < 4 := by omega
      simp [h3, show 12 + (i - 12) = i by omega]

theorem wordFNNN_fields (w : Word) : wordFNNN (fieldF w) (fieldNNN w) = w := by
  apply BitVec.eq_of_getLsbD_eq
  intro i hi
  rw [getLsbD_wordFNNN]
  simp only [fieldNNN, fieldF, BitVec.getLsbD_extractLsb']
  split
  · next h => simp [h]
  · have h3 : i - 12 < 4 := by omega
    simp [h3, show 12 + (i - 12) = i by omega]

/-- The bytes of a word, high byte first, make the word again (20_memory R46, R47). -/
theorem wordOfBytes_split (w : Word) : wordOfBytes (w.extractLsb' 8 8) (w.extractLsb' 0 8) = w := by
  apply BitVec.eq_of_getLsbD_eq
  intro i hi
  refine (BitVec.getLsbD_append (x := w.extractLsb' 8 8) (y := w.extractLsb' 0 8) (i := i)).trans ?_
  simp only [BitVec.getLsbD_extractLsb']
  split
  · next h => simp [h]
  · have h3 : i - 8 < 8 := by omega
    simp [h3, show 8 + (i - 8) = i by omega]

/-- The big-endian word of two bytes as a number (20_memory R46). -/
theorem wordOfBytes_toNat (hi lo : Byte) : (wordOfBytes hi lo).toNat = hi.toNat * 256 + lo.toNat := by
  have := lo.isLt
  have h : (wordOfBytes hi lo).toNat = hi.toNat <<< 8 ||| lo.toNat := BitVec.toNat_append hi lo
  rw [h, Nat.shiftLeft_eq, Nat.mul_comm, ← Nat.two_pow_add_eq_or_of_lt (by omega) hi.toNat]

/-- Decoding two bytes decodes their word. -/
theorem decode_two (hi lo : Byte) (rest : List Byte) :
    decode (hi :: lo :: rest) =
      match decodeWord (wordOfBytes hi lo) with
      | some i => .ok (i, rest)
      | none => .error (.invalidInstruction (wordOfBytes hi lo)) := rfl

end Sys2Proof
end

