-- ==== Sys2Proof/Laws/State.lean ====
section
/-! SUPPORT. The field lemmas of the state updates: what each update writes, and that it leaves every other field. -/

namespace Sys2Proof.Machine

/-! ### setMem -/

@[simp] theorem State.setMem_mem (s : State) (m : Memory) : (s.setMem m).mem = m := rfl
@[simp] theorem State.setMem_v (s : State) (m : Memory) : (s.setMem m).v = s.v := rfl
@[simp] theorem State.setMem_pc (s : State) (m : Memory) : (s.setMem m).pc = s.pc := rfl
@[simp] theorem State.setMem_ir (s : State) (m : Memory) : (s.setMem m).ir = s.ir := rfl
@[simp] theorem State.setMem_stack (s : State) (m : Memory) : (s.setMem m).stack = s.stack := rfl
@[simp] theorem State.setMem_dt (s : State) (m : Memory) : (s.setMem m).dt = s.dt := rfl
@[simp] theorem State.setMem_st (s : State) (m : Memory) : (s.setMem m).st = s.st := rfl
@[simp] theorem State.setMem_disp (s : State) (m : Memory) : (s.setMem m).disp = s.disp := rfl
@[simp] theorem State.setMem_key (s : State) (m : Memory) : (s.setMem m).key = s.key := rfl
@[simp] theorem State.setMem_exit (s : State) (m : Memory) : (s.setMem m).exit = s.exit := rfl
@[simp] theorem State.setMem_mode (s : State) (m : Memory) : (s.setMem m).mode = s.mode := rfl
@[simp] theorem State.setMem_timer (s : State) (m : Memory) : (s.setMem m).timer = s.timer := rfl
@[simp] theorem State.setMem_params (s : State) (m : Memory) : (s.setMem m).params = s.params := rfl
@[simp] theorem State.setMem_schedule (s : State) (m : Memory) : (s.setMem m).schedule = s.schedule := rfl
@[simp] theorem State.setMem_draws (s : State) (m : Memory) : (s.setMem m).draws = s.draws := rfl
@[simp] theorem State.setMem_getV (s : State) (m : Memory) (r : Reg) : (s.setMem m).getV r = s.getV r := rfl

/-! ### setPc -/

@[simp] theorem State.setPc_mem (s : State) (a : Word) : (s.setPc a).mem = s.mem := rfl
@[simp] theorem State.setPc_v (s : State) (a : Word) : (s.setPc a).v = s.v := rfl
@[simp] theorem State.setPc_pc (s : State) (a : Word) : (s.setPc a).pc = a := rfl
@[simp] theorem State.setPc_ir (s : State) (a : Word) : (s.setPc a).ir = s.ir := rfl
@[simp] theorem State.setPc_stack (s : State) (a : Word) : (s.setPc a).stack = s.stack := rfl
@[simp] theorem State.setPc_dt (s : State) (a : Word) : (s.setPc a).dt = s.dt := rfl
@[simp] theorem State.setPc_st (s : State) (a : Word) : (s.setPc a).st = s.st := rfl
@[simp] theorem State.setPc_disp (s : State) (a : Word) : (s.setPc a).disp = s.disp := rfl
@[simp] theorem State.setPc_key (s : State) (a : Word) : (s.setPc a).key = s.key := rfl
@[simp] theorem State.setPc_exit (s : State) (a : Word) : (s.setPc a).exit = s.exit := rfl
@[simp] theorem State.setPc_mode (s : State) (a : Word) : (s.setPc a).mode = s.mode := rfl
@[simp] theorem State.setPc_timer (s : State) (a : Word) : (s.setPc a).timer = s.timer := rfl
@[simp] theorem State.setPc_params (s : State) (a : Word) : (s.setPc a).params = s.params := rfl
@[simp] theorem State.setPc_schedule (s : State) (a : Word) : (s.setPc a).schedule = s.schedule := rfl
@[simp] theorem State.setPc_draws (s : State) (a : Word) : (s.setPc a).draws = s.draws := rfl
@[simp] theorem State.setPc_getV (s : State) (a : Word) (r : Reg) : (s.setPc a).getV r = s.getV r := rfl

/-! ### setIr -/

@[simp] theorem State.setIr_mem (s : State) (a : Word) : (s.setIr a).mem = s.mem := rfl
@[simp] theorem State.setIr_v (s : State) (a : Word) : (s.setIr a).v = s.v := rfl
@[simp] theorem State.setIr_pc (s : State) (a : Word) : (s.setIr a).pc = s.pc := rfl
@[simp] theorem State.setIr_ir (s : State) (a : Word) : (s.setIr a).ir = a := rfl
@[simp] theorem State.setIr_stack (s : State) (a : Word) : (s.setIr a).stack = s.stack := rfl
@[simp] theorem State.setIr_dt (s : State) (a : Word) : (s.setIr a).dt = s.dt := rfl
@[simp] theorem State.setIr_st (s : State) (a : Word) : (s.setIr a).st = s.st := rfl
@[simp] theorem State.setIr_disp (s : State) (a : Word) : (s.setIr a).disp = s.disp := rfl
@[simp] theorem State.setIr_key (s : State) (a : Word) : (s.setIr a).key = s.key := rfl
@[simp] theorem State.setIr_exit (s : State) (a : Word) : (s.setIr a).exit = s.exit := rfl
@[simp] theorem State.setIr_mode (s : State) (a : Word) : (s.setIr a).mode = s.mode := rfl
@[simp] theorem State.setIr_timer (s : State) (a : Word) : (s.setIr a).timer = s.timer := rfl
@[simp] theorem State.setIr_params (s : State) (a : Word) : (s.setIr a).params = s.params := rfl
@[simp] theorem State.setIr_schedule (s : State) (a : Word) : (s.setIr a).schedule = s.schedule := rfl
@[simp] theorem State.setIr_draws (s : State) (a : Word) : (s.setIr a).draws = s.draws := rfl
@[simp] theorem State.setIr_getV (s : State) (a : Word) (r : Reg) : (s.setIr a).getV r = s.getV r := rfl

/-! ### setStack -/

@[simp] theorem State.setStack_mem (s : State) (l : List Word) : (s.setStack l).mem = s.mem := rfl
@[simp] theorem State.setStack_v (s : State) (l : List Word) : (s.setStack l).v = s.v := rfl
@[simp] theorem State.setStack_pc (s : State) (l : List Word) : (s.setStack l).pc = s.pc := rfl
@[simp] theorem State.setStack_ir (s : State) (l : List Word) : (s.setStack l).ir = s.ir := rfl
@[simp] theorem State.setStack_stack (s : State) (l : List Word) : (s.setStack l).stack = l := rfl
@[simp] theorem State.setStack_dt (s : State) (l : List Word) : (s.setStack l).dt = s.dt := rfl
@[simp] theorem State.setStack_st (s : State) (l : List Word) : (s.setStack l).st = s.st := rfl
@[simp] theorem State.setStack_disp (s : State) (l : List Word) : (s.setStack l).disp = s.disp := rfl
@[simp] theorem State.setStack_key (s : State) (l : List Word) : (s.setStack l).key = s.key := rfl
@[simp] theorem State.setStack_exit (s : State) (l : List Word) : (s.setStack l).exit = s.exit := rfl
@[simp] theorem State.setStack_mode (s : State) (l : List Word) : (s.setStack l).mode = s.mode := rfl
@[simp] theorem State.setStack_timer (s : State) (l : List Word) : (s.setStack l).timer = s.timer := rfl
@[simp] theorem State.setStack_params (s : State) (l : List Word) : (s.setStack l).params = s.params := rfl
@[simp] theorem State.setStack_schedule (s : State) (l : List Word) : (s.setStack l).schedule = s.schedule := rfl
@[simp] theorem State.setStack_draws (s : State) (l : List Word) : (s.setStack l).draws = s.draws := rfl
@[simp] theorem State.setStack_getV (s : State) (l : List Word) (r : Reg) : (s.setStack l).getV r = s.getV r := rfl

/-! ### setDt -/

@[simp] theorem State.setDt_mem (s : State) (b : Byte) : (s.setDt b).mem = s.mem := rfl
@[simp] theorem State.setDt_v (s : State) (b : Byte) : (s.setDt b).v = s.v := rfl
@[simp] theorem State.setDt_pc (s : State) (b : Byte) : (s.setDt b).pc = s.pc := rfl
@[simp] theorem State.setDt_ir (s : State) (b : Byte) : (s.setDt b).ir = s.ir := rfl
@[simp] theorem State.setDt_stack (s : State) (b : Byte) : (s.setDt b).stack = s.stack := rfl
@[simp] theorem State.setDt_dt (s : State) (b : Byte) : (s.setDt b).dt = b := rfl
@[simp] theorem State.setDt_st (s : State) (b : Byte) : (s.setDt b).st = s.st := rfl
@[simp] theorem State.setDt_disp (s : State) (b : Byte) : (s.setDt b).disp = s.disp := rfl
@[simp] theorem State.setDt_key (s : State) (b : Byte) : (s.setDt b).key = s.key := rfl
@[simp] theorem State.setDt_exit (s : State) (b : Byte) : (s.setDt b).exit = s.exit := rfl
@[simp] theorem State.setDt_mode (s : State) (b : Byte) : (s.setDt b).mode = s.mode := rfl
@[simp] theorem State.setDt_timer (s : State) (b : Byte) : (s.setDt b).timer = s.timer := rfl
@[simp] theorem State.setDt_params (s : State) (b : Byte) : (s.setDt b).params = s.params := rfl
@[simp] theorem State.setDt_schedule (s : State) (b : Byte) : (s.setDt b).schedule = s.schedule := rfl
@[simp] theorem State.setDt_draws (s : State) (b : Byte) : (s.setDt b).draws = s.draws := rfl
@[simp] theorem State.setDt_getV (s : State) (b : Byte) (r : Reg) : (s.setDt b).getV r = s.getV r := rfl

/-! ### setSt -/

@[simp] theorem State.setSt_mem (s : State) (b : Byte) : (s.setSt b).mem = s.mem := rfl
@[simp] theorem State.setSt_v (s : State) (b : Byte) : (s.setSt b).v = s.v := rfl
@[simp] theorem State.setSt_pc (s : State) (b : Byte) : (s.setSt b).pc = s.pc := rfl
@[simp] theorem State.setSt_ir (s : State) (b : Byte) : (s.setSt b).ir = s.ir := rfl
@[simp] theorem State.setSt_stack (s : State) (b : Byte) : (s.setSt b).stack = s.stack := rfl
@[simp] theorem State.setSt_dt (s : State) (b : Byte) : (s.setSt b).dt = s.dt := rfl
@[simp] theorem State.setSt_st (s : State) (b : Byte) : (s.setSt b).st = b := rfl
@[simp] theorem State.setSt_disp (s : State) (b : Byte) : (s.setSt b).disp = s.disp := rfl
@[simp] theorem State.setSt_key (s : State) (b : Byte) : (s.setSt b).key = s.key := rfl
@[simp] theorem State.setSt_exit (s : State) (b : Byte) : (s.setSt b).exit = s.exit := rfl
@[simp] theorem State.setSt_mode (s : State) (b : Byte) : (s.setSt b).mode = s.mode := rfl
@[simp] theorem State.setSt_timer (s : State) (b : Byte) : (s.setSt b).timer = s.timer := rfl
@[simp] theorem State.setSt_params (s : State) (b : Byte) : (s.setSt b).params = s.params := rfl
@[simp] theorem State.setSt_schedule (s : State) (b : Byte) : (s.setSt b).schedule = s.schedule := rfl
@[simp] theorem State.setSt_draws (s : State) (b : Byte) : (s.setSt b).draws = s.draws := rfl
@[simp] theorem State.setSt_getV (s : State) (b : Byte) (r : Reg) : (s.setSt b).getV r = s.getV r := rfl

/-! ### setDisp -/

@[simp] theorem State.setDisp_mem (s : State) (d : Display) : (s.setDisp d).mem = s.mem := rfl
@[simp] theorem State.setDisp_v (s : State) (d : Display) : (s.setDisp d).v = s.v := rfl
@[simp] theorem State.setDisp_pc (s : State) (d : Display) : (s.setDisp d).pc = s.pc := rfl
@[simp] theorem State.setDisp_ir (s : State) (d : Display) : (s.setDisp d).ir = s.ir := rfl
@[simp] theorem State.setDisp_stack (s : State) (d : Display) : (s.setDisp d).stack = s.stack := rfl
@[simp] theorem State.setDisp_dt (s : State) (d : Display) : (s.setDisp d).dt = s.dt := rfl
@[simp] theorem State.setDisp_st (s : State) (d : Display) : (s.setDisp d).st = s.st := rfl
@[simp] theorem State.setDisp_disp (s : State) (d : Display) : (s.setDisp d).disp = d := rfl
@[simp] theorem State.setDisp_key (s : State) (d : Display) : (s.setDisp d).key = s.key := rfl
@[simp] theorem State.setDisp_exit (s : State) (d : Display) : (s.setDisp d).exit = s.exit := rfl
@[simp] theorem State.setDisp_mode (s : State) (d : Display) : (s.setDisp d).mode = s.mode := rfl
@[simp] theorem State.setDisp_timer (s : State) (d : Display) : (s.setDisp d).timer = s.timer := rfl
@[simp] theorem State.setDisp_params (s : State) (d : Display) : (s.setDisp d).params = s.params := rfl
@[simp] theorem State.setDisp_schedule (s : State) (d : Display) : (s.setDisp d).schedule = s.schedule := rfl
@[simp] theorem State.setDisp_draws (s : State) (d : Display) : (s.setDisp d).draws = s.draws := rfl
@[simp] theorem State.setDisp_getV (s : State) (d : Display) (r : Reg) : (s.setDisp d).getV r = s.getV r := rfl

/-! ### setKey -/

@[simp] theorem State.setKey_mem (s : State) (k : Option Key) : (s.setKey k).mem = s.mem := rfl
@[simp] theorem State.setKey_v (s : State) (k : Option Key) : (s.setKey k).v = s.v := rfl
@[simp] theorem State.setKey_pc (s : State) (k : Option Key) : (s.setKey k).pc = s.pc := rfl
@[simp] theorem State.setKey_ir (s : State) (k : Option Key) : (s.setKey k).ir = s.ir := rfl
@[simp] theorem State.setKey_stack (s : State) (k : Option Key) : (s.setKey k).stack = s.stack := rfl
@[simp] theorem State.setKey_dt (s : State) (k : Option Key) : (s.setKey k).dt = s.dt := rfl
@[simp] theorem State.setKey_st (s : State) (k : Option Key) : (s.setKey k).st = s.st := rfl
@[simp] theorem State.setKey_disp (s : State) (k : Option Key) : (s.setKey k).disp = s.disp := rfl
@[simp] theorem State.setKey_key (s : State) (k : Option Key) : (s.setKey k).key = k := rfl
@[simp] theorem State.setKey_exit (s : State) (k : Option Key) : (s.setKey k).exit = s.exit := rfl
@[simp] theorem State.setKey_mode (s : State) (k : Option Key) : (s.setKey k).mode = s.mode := rfl
@[simp] theorem State.setKey_timer (s : State) (k : Option Key) : (s.setKey k).timer = s.timer := rfl
@[simp] theorem State.setKey_params (s : State) (k : Option Key) : (s.setKey k).params = s.params := rfl
@[simp] theorem State.setKey_schedule (s : State) (k : Option Key) : (s.setKey k).schedule = s.schedule := rfl
@[simp] theorem State.setKey_draws (s : State) (k : Option Key) : (s.setKey k).draws = s.draws := rfl
@[simp] theorem State.setKey_getV (s : State) (k : Option Key) (r : Reg) : (s.setKey k).getV r = s.getV r := rfl

/-! ### setExit -/

@[simp] theorem State.setExit_mem (s : State) (e : Bool) : (s.setExit e).mem = s.mem := rfl
@[simp] theorem State.setExit_v (s : State) (e : Bool) : (s.setExit e).v = s.v := rfl
@[simp] theorem State.setExit_pc (s : State) (e : Bool) : (s.setExit e).pc = s.pc := rfl
@[simp] theorem State.setExit_ir (s : State) (e : Bool) : (s.setExit e).ir = s.ir := rfl
@[simp] theorem State.setExit_stack (s : State) (e : Bool) : (s.setExit e).stack = s.stack := rfl
@[simp] theorem State.setExit_dt (s : State) (e : Bool) : (s.setExit e).dt = s.dt := rfl
@[simp] theorem State.setExit_st (s : State) (e : Bool) : (s.setExit e).st = s.st := rfl
@[simp] theorem State.setExit_disp (s : State) (e : Bool) : (s.setExit e).disp = s.disp := rfl
@[simp] theorem State.setExit_key (s : State) (e : Bool) : (s.setExit e).key = s.key := rfl
@[simp] theorem State.setExit_exit (s : State) (e : Bool) : (s.setExit e).exit = e := rfl
@[simp] theorem State.setExit_mode (s : State) (e : Bool) : (s.setExit e).mode = s.mode := rfl
@[simp] theorem State.setExit_timer (s : State) (e : Bool) : (s.setExit e).timer = s.timer := rfl
@[simp] theorem State.setExit_params (s : State) (e : Bool) : (s.setExit e).params = s.params := rfl
@[simp] theorem State.setExit_schedule (s : State) (e : Bool) : (s.setExit e).schedule = s.schedule := rfl
@[simp] theorem State.setExit_draws (s : State) (e : Bool) : (s.setExit e).draws = s.draws := rfl
@[simp] theorem State.setExit_getV (s : State) (e : Bool) (r : Reg) : (s.setExit e).getV r = s.getV r := rfl

/-! ### setMode -/

@[simp] theorem State.setMode_mem (s : State) (m : Mode) : (s.setMode m).mem = s.mem := rfl
@[simp] theorem State.setMode_v (s : State) (m : Mode) : (s.setMode m).v = s.v := rfl
@[simp] theorem State.setMode_pc (s : State) (m : Mode) : (s.setMode m).pc = s.pc := rfl
@[simp] theorem State.setMode_ir (s : State) (m : Mode) : (s.setMode m).ir = s.ir := rfl
@[simp] theorem State.setMode_stack (s : State) (m : Mode) : (s.setMode m).stack = s.stack := rfl
@[simp] theorem State.setMode_dt (s : State) (m : Mode) : (s.setMode m).dt = s.dt := rfl
@[simp] theorem State.setMode_st (s : State) (m : Mode) : (s.setMode m).st = s.st := rfl
@[simp] theorem State.setMode_disp (s : State) (m : Mode) : (s.setMode m).disp = s.disp := rfl
@[simp] theorem State.setMode_key (s : State) (m : Mode) : (s.setMode m).key = s.key := rfl
@[simp] theorem State.setMode_exit (s : State) (m : Mode) : (s.setMode m).exit = s.exit := rfl
@[simp] theorem State.setMode_mode (s : State) (m : Mode) : (s.setMode m).mode = m := rfl
@[simp] theorem State.setMode_timer (s : State) (m : Mode) : (s.setMode m).timer = s.timer := rfl
@[simp] theorem State.setMode_params (s : State) (m : Mode) : (s.setMode m).params = s.params := rfl
@[simp] theorem State.setMode_schedule (s : State) (m : Mode) : (s.setMode m).schedule = s.schedule := rfl
@[simp] theorem State.setMode_draws (s : State) (m : Mode) : (s.setMode m).draws = s.draws := rfl
@[simp] theorem State.setMode_getV (s : State) (m : Mode) (r : Reg) : (s.setMode m).getV r = s.getV r := rfl

/-! ### setTimer -/

@[simp] theorem State.setTimer_mem (s : State) (t : TimerPhase) : (s.setTimer t).mem = s.mem := rfl
@[simp] theorem State.setTimer_v (s : State) (t : TimerPhase) : (s.setTimer t).v = s.v := rfl
@[simp] theorem State.setTimer_pc (s : State) (t : TimerPhase) : (s.setTimer t).pc = s.pc := rfl
@[simp] theorem State.setTimer_ir (s : State) (t : TimerPhase) : (s.setTimer t).ir = s.ir := rfl
@[simp] theorem State.setTimer_stack (s : State) (t : TimerPhase) : (s.setTimer t).stack = s.stack := rfl
@[simp] theorem State.setTimer_dt (s : State) (t : TimerPhase) : (s.setTimer t).dt = s.dt := rfl
@[simp] theorem State.setTimer_st (s : State) (t : TimerPhase) : (s.setTimer t).st = s.st := rfl
@[simp] theorem State.setTimer_disp (s : State) (t : TimerPhase) : (s.setTimer t).disp = s.disp := rfl
@[simp] theorem State.setTimer_key (s : State) (t : TimerPhase) : (s.setTimer t).key = s.key := rfl
@[simp] theorem State.setTimer_exit (s : State) (t : TimerPhase) : (s.setTimer t).exit = s.exit := rfl
@[simp] theorem State.setTimer_mode (s : State) (t : TimerPhase) : (s.setTimer t).mode = s.mode := rfl
@[simp] theorem State.setTimer_timer (s : State) (t : TimerPhase) : (s.setTimer t).timer = t := rfl
@[simp] theorem State.setTimer_params (s : State) (t : TimerPhase) : (s.setTimer t).params = s.params := rfl
@[simp] theorem State.setTimer_schedule (s : State) (t : TimerPhase) : (s.setTimer t).schedule = s.schedule := rfl
@[simp] theorem State.setTimer_draws (s : State) (t : TimerPhase) : (s.setTimer t).draws = s.draws := rfl
@[simp] theorem State.setTimer_getV (s : State) (t : TimerPhase) (r : Reg) : (s.setTimer t).getV r = s.getV r := rfl

/-! ### setSchedule -/

@[simp] theorem State.setSchedule_mem (s : State) (l : List Event) : (s.setSchedule l).mem = s.mem := rfl
@[simp] theorem State.setSchedule_v (s : State) (l : List Event) : (s.setSchedule l).v = s.v := rfl
@[simp] theorem State.setSchedule_pc (s : State) (l : List Event) : (s.setSchedule l).pc = s.pc := rfl
@[simp] theorem State.setSchedule_ir (s : State) (l : List Event) : (s.setSchedule l).ir = s.ir := rfl
@[simp] theorem State.setSchedule_stack (s : State) (l : List Event) : (s.setSchedule l).stack = s.stack := rfl
@[simp] theorem State.setSchedule_dt (s : State) (l : List Event) : (s.setSchedule l).dt = s.dt := rfl
@[simp] theorem State.setSchedule_st (s : State) (l : List Event) : (s.setSchedule l).st = s.st := rfl
@[simp] theorem State.setSchedule_disp (s : State) (l : List Event) : (s.setSchedule l).disp = s.disp := rfl
@[simp] theorem State.setSchedule_key (s : State) (l : List Event) : (s.setSchedule l).key = s.key := rfl
@[simp] theorem State.setSchedule_exit (s : State) (l : List Event) : (s.setSchedule l).exit = s.exit := rfl
@[simp] theorem State.setSchedule_mode (s : State) (l : List Event) : (s.setSchedule l).mode = s.mode := rfl
@[simp] theorem State.setSchedule_timer (s : State) (l : List Event) : (s.setSchedule l).timer = s.timer := rfl
@[simp] theorem State.setSchedule_params (s : State) (l : List Event) : (s.setSchedule l).params = s.params := rfl
@[simp] theorem State.setSchedule_schedule (s : State) (l : List Event) : (s.setSchedule l).schedule = l := rfl
@[simp] theorem State.setSchedule_draws (s : State) (l : List Event) : (s.setSchedule l).draws = s.draws := rfl
@[simp] theorem State.setSchedule_getV (s : State) (l : List Event) (r : Reg) : (s.setSchedule l).getV r = s.getV r := rfl

/-! ### setDraws -/

@[simp] theorem State.setDraws_mem (s : State) (n : Nat) : (s.setDraws n).mem = s.mem := rfl
@[simp] theorem State.setDraws_v (s : State) (n : Nat) : (s.setDraws n).v = s.v := rfl
@[simp] theorem State.setDraws_pc (s : State) (n : Nat) : (s.setDraws n).pc = s.pc := rfl
@[simp] theorem State.setDraws_ir (s : State) (n : Nat) : (s.setDraws n).ir = s.ir := rfl
@[simp] theorem State.setDraws_stack (s : State) (n : Nat) : (s.setDraws n).stack = s.stack := rfl
@[simp] theorem State.setDraws_dt (s : State) (n : Nat) : (s.setDraws n).dt = s.dt := rfl
@[simp] theorem State.setDraws_st (s : State) (n : Nat) : (s.setDraws n).st = s.st := rfl
@[simp] theorem State.setDraws_disp (s : State) (n : Nat) : (s.setDraws n).disp = s.disp := rfl
@[simp] theorem State.setDraws_key (s : State) (n : Nat) : (s.setDraws n).key = s.key := rfl
@[simp] theorem State.setDraws_exit (s : State) (n : Nat) : (s.setDraws n).exit = s.exit := rfl
@[simp] theorem State.setDraws_mode (s : State) (n : Nat) : (s.setDraws n).mode = s.mode := rfl
@[simp] theorem State.setDraws_timer (s : State) (n : Nat) : (s.setDraws n).timer = s.timer := rfl
@[simp] theorem State.setDraws_params (s : State) (n : Nat) : (s.setDraws n).params = s.params := rfl
@[simp] theorem State.setDraws_schedule (s : State) (n : Nat) : (s.setDraws n).schedule = s.schedule := rfl
@[simp] theorem State.setDraws_draws (s : State) (n : Nat) : (s.setDraws n).draws = n := rfl
@[simp] theorem State.setDraws_getV (s : State) (n : Nat) (r : Reg) : (s.setDraws n).getV r = s.getV r := rfl

/-! ### setRegs -/

@[simp] theorem State.setRegs_mem (s : State) (w : Vector Byte 16) : (s.setRegs w).mem = s.mem := rfl
@[simp] theorem State.setRegs_v (s : State) (w : Vector Byte 16) : (s.setRegs w).v = w := rfl
@[simp] theorem State.setRegs_pc (s : State) (w : Vector Byte 16) : (s.setRegs w).pc = s.pc := rfl
@[simp] theorem State.setRegs_ir (s : State) (w : Vector Byte 16) : (s.setRegs w).ir = s.ir := rfl
@[simp] theorem State.setRegs_stack (s : State) (w : Vector Byte 16) : (s.setRegs w).stack = s.stack := rfl
@[simp] theorem State.setRegs_dt (s : State) (w : Vector Byte 16) : (s.setRegs w).dt = s.dt := rfl
@[simp] theorem State.setRegs_st (s : State) (w : Vector Byte 16) : (s.setRegs w).st = s.st := rfl
@[simp] theorem State.setRegs_disp (s : State) (w : Vector Byte 16) : (s.setRegs w).disp = s.disp := rfl
@[simp] theorem State.setRegs_key (s : State) (w : Vector Byte 16) : (s.setRegs w).key = s.key := rfl
@[simp] theorem State.setRegs_exit (s : State) (w : Vector Byte 16) : (s.setRegs w).exit = s.exit := rfl
@[simp] theorem State.setRegs_mode (s : State) (w : Vector Byte 16) : (s.setRegs w).mode = s.mode := rfl
@[simp] theorem State.setRegs_timer (s : State) (w : Vector Byte 16) : (s.setRegs w).timer = s.timer := rfl
@[simp] theorem State.setRegs_params (s : State) (w : Vector Byte 16) : (s.setRegs w).params = s.params := rfl
@[simp] theorem State.setRegs_schedule (s : State) (w : Vector Byte 16) : (s.setRegs w).schedule = s.schedule := rfl
@[simp] theorem State.setRegs_draws (s : State) (w : Vector Byte 16) : (s.setRegs w).draws = s.draws := rfl

/-! ### setV -/

@[simp] theorem State.setV_mem (s : State) (x : Reg) (b : Byte) : (s.setV x b).mem = s.mem := rfl
@[simp] theorem State.setV_v (s : State) (x : Reg) (b : Byte) : (s.setV x b).v = s.v.set x.val b := rfl
@[simp] theorem State.setV_pc (s : State) (x : Reg) (b : Byte) : (s.setV x b).pc = s.pc := rfl
@[simp] theorem State.setV_ir (s : State) (x : Reg) (b : Byte) : (s.setV x b).ir = s.ir := rfl
@[simp] theorem State.setV_stack (s : State) (x : Reg) (b : Byte) : (s.setV x b).stack = s.stack := rfl
@[simp] theorem State.setV_dt (s : State) (x : Reg) (b : Byte) : (s.setV x b).dt = s.dt := rfl
@[simp] theorem State.setV_st (s : State) (x : Reg) (b : Byte) : (s.setV x b).st = s.st := rfl
@[simp] theorem State.setV_disp (s : State) (x : Reg) (b : Byte) : (s.setV x b).disp = s.disp := rfl
@[simp] theorem State.setV_key (s : State) (x : Reg) (b : Byte) : (s.setV x b).key = s.key := rfl
@[simp] theorem State.setV_exit (s : State) (x : Reg) (b : Byte) : (s.setV x b).exit = s.exit := rfl
@[simp] theorem State.setV_mode (s : State) (x : Reg) (b : Byte) : (s.setV x b).mode = s.mode := rfl
@[simp] theorem State.setV_timer (s : State) (x : Reg) (b : Byte) : (s.setV x b).timer = s.timer := rfl
@[simp] theorem State.setV_params (s : State) (x : Reg) (b : Byte) : (s.setV x b).params = s.params := rfl
@[simp] theorem State.setV_schedule (s : State) (x : Reg) (b : Byte) : (s.setV x b).schedule = s.schedule := rfl
@[simp] theorem State.setV_draws (s : State) (x : Reg) (b : Byte) : (s.setV x b).draws = s.draws := rfl

/-! ### haltWith -/

@[simp] theorem State.haltWith_mem (s : State) (f : EngineFault) (w : Option Word) : (s.haltWith f w).mem = s.mem := rfl
@[simp] theorem State.haltWith_v (s : State) (f : EngineFault) (w : Option Word) : (s.haltWith f w).v = s.v := rfl
@[simp] theorem State.haltWith_pc (s : State) (f : EngineFault) (w : Option Word) : (s.haltWith f w).pc = s.pc := rfl
@[simp] theorem State.haltWith_ir (s : State) (f : EngineFault) (w : Option Word) : (s.haltWith f w).ir = s.ir := rfl
@[simp] theorem State.haltWith_stack (s : State) (f : EngineFault) (w : Option Word) : (s.haltWith f w).stack = s.stack := rfl
@[simp] theorem State.haltWith_dt (s : State) (f : EngineFault) (w : Option Word) : (s.haltWith f w).dt = s.dt := rfl
@[simp] theorem State.haltWith_st (s : State) (f : EngineFault) (w : Option Word) : (s.haltWith f w).st = s.st := rfl
@[simp] theorem State.haltWith_disp (s : State) (f : EngineFault) (w : Option Word) : (s.haltWith f w).disp = s.disp := rfl
@[simp] theorem State.haltWith_key (s : State) (f : EngineFault) (w : Option Word) : (s.haltWith f w).key = s.key := rfl
@[simp] theorem State.haltWith_exit (s : State) (f : EngineFault) (w : Option Word) : (s.haltWith f w).exit = s.exit := rfl
@[simp] theorem State.haltWith_mode (s : State) (f : EngineFault) (w : Option Word) : (s.haltWith f w).mode = .halted { kind := f, addr := s.pc, word := w } := rfl
@[simp] theorem State.haltWith_timer (s : State) (f : EngineFault) (w : Option Word) : (s.haltWith f w).timer = s.timer := rfl
@[simp] theorem State.haltWith_params (s : State) (f : EngineFault) (w : Option Word) : (s.haltWith f w).params = s.params := rfl
@[simp] theorem State.haltWith_schedule (s : State) (f : EngineFault) (w : Option Word) : (s.haltWith f w).schedule = s.schedule := rfl
@[simp] theorem State.haltWith_draws (s : State) (f : EngineFault) (w : Option Word) : (s.haltWith f w).draws = s.draws := rfl
@[simp] theorem State.haltWith_getV (s : State) (f : EngineFault) (w : Option Word) (r : Reg) : (s.haltWith f w).getV r = s.getV r := rfl

/-! ### advance -/

@[simp] theorem State.advance_mem (s : State) : (s.advance).mem = s.mem := rfl
@[simp] theorem State.advance_v (s : State) : (s.advance).v = s.v := rfl
@[simp] theorem State.advance_pc (s : State) : (s.advance).pc = s.pc + 2 := rfl
@[simp] theorem State.advance_ir (s : State) : (s.advance).ir = s.ir := rfl
@[simp] theorem State.advance_stack (s : State) : (s.advance).stack = s.stack := rfl
@[simp] theorem State.advance_dt (s : State) : (s.advance).dt = s.dt := rfl
@[simp] theorem State.advance_st (s : State) : (s.advance).st = s.st := rfl
@[simp] theorem State.advance_disp (s : State) : (s.advance).disp = s.disp := rfl
@[simp] theorem State.advance_key (s : State) : (s.advance).key = s.key := rfl
@[simp] theorem State.advance_exit (s : State) : (s.advance).exit = s.exit := rfl
@[simp] theorem State.advance_mode (s : State) : (s.advance).mode = s.mode := rfl
@[simp] theorem State.advance_timer (s : State) : (s.advance).timer = s.timer := rfl
@[simp] theorem State.advance_params (s : State) : (s.advance).params = s.params := rfl
@[simp] theorem State.advance_schedule (s : State) : (s.advance).schedule = s.schedule := rfl
@[simp] theorem State.advance_draws (s : State) : (s.advance).draws = s.draws := rfl
@[simp] theorem State.advance_getV (s : State) (r : Reg) : (s.advance).getV r = s.getV r := rfl

/-! ### rewind -/

@[simp] theorem State.rewind_mem (s : State) : (s.rewind).mem = s.mem := rfl
@[simp] theorem State.rewind_v (s : State) : (s.rewind).v = s.v := rfl
@[simp] theorem State.rewind_pc (s : State) : (s.rewind).pc = s.pc - 2 := rfl
@[simp] theorem State.rewind_ir (s : State) : (s.rewind).ir = s.ir := rfl
@[simp] theorem State.rewind_stack (s : State) : (s.rewind).stack = s.stack := rfl
@[simp] theorem State.rewind_dt (s : State) : (s.rewind).dt = s.dt := rfl
@[simp] theorem State.rewind_st (s : State) : (s.rewind).st = s.st := rfl
@[simp] theorem State.rewind_disp (s : State) : (s.rewind).disp = s.disp := rfl
@[simp] theorem State.rewind_key (s : State) : (s.rewind).key = s.key := rfl
@[simp] theorem State.rewind_exit (s : State) : (s.rewind).exit = s.exit := rfl
@[simp] theorem State.rewind_mode (s : State) : (s.rewind).mode = s.mode := rfl
@[simp] theorem State.rewind_timer (s : State) : (s.rewind).timer = s.timer := rfl
@[simp] theorem State.rewind_params (s : State) : (s.rewind).params = s.params := rfl
@[simp] theorem State.rewind_schedule (s : State) : (s.rewind).schedule = s.schedule := rfl
@[simp] theorem State.rewind_draws (s : State) : (s.rewind).draws = s.draws := rfl
@[simp] theorem State.rewind_getV (s : State) (r : Reg) : (s.rewind).getV r = s.getV r := rfl

/-! ### skipIf -/

@[simp] theorem State.skipIf_pc (s : State) (c : Bool) : (s.skipIf c).pc = if c then s.pc + 2 else s.pc := by
  cases c <;> rfl
@[simp] theorem State.skipIf_mem (s : State) (c : Bool) : (s.skipIf c).mem = s.mem := by cases c <;> rfl
@[simp] theorem State.skipIf_v (s : State) (c : Bool) : (s.skipIf c).v = s.v := by cases c <;> rfl
@[simp] theorem State.skipIf_ir (s : State) (c : Bool) : (s.skipIf c).ir = s.ir := by cases c <;> rfl
@[simp] theorem State.skipIf_stack (s : State) (c : Bool) : (s.skipIf c).stack = s.stack := by cases c <;> rfl
@[simp] theorem State.skipIf_dt (s : State) (c : Bool) : (s.skipIf c).dt = s.dt := by cases c <;> rfl
@[simp] theorem State.skipIf_st (s : State) (c : Bool) : (s.skipIf c).st = s.st := by cases c <;> rfl
@[simp] theorem State.skipIf_disp (s : State) (c : Bool) : (s.skipIf c).disp = s.disp := by cases c <;> rfl
@[simp] theorem State.skipIf_key (s : State) (c : Bool) : (s.skipIf c).key = s.key := by cases c <;> rfl
@[simp] theorem State.skipIf_exit (s : State) (c : Bool) : (s.skipIf c).exit = s.exit := by cases c <;> rfl
@[simp] theorem State.skipIf_mode (s : State) (c : Bool) : (s.skipIf c).mode = s.mode := by cases c <;> rfl
@[simp] theorem State.skipIf_timer (s : State) (c : Bool) : (s.skipIf c).timer = s.timer := by cases c <;> rfl
@[simp] theorem State.skipIf_params (s : State) (c : Bool) : (s.skipIf c).params = s.params := by cases c <;> rfl
@[simp] theorem State.skipIf_schedule (s : State) (c : Bool) : (s.skipIf c).schedule = s.schedule := by cases c <;> rfl
@[simp] theorem State.skipIf_draws (s : State) (c : Bool) : (s.skipIf c).draws = s.draws := by cases c <;> rfl
@[simp] theorem State.skipIf_getV (s : State) (c : Bool) (r : Reg) : (s.skipIf c).getV r = s.getV r := by
  cases c <;> rfl

/-! ### Registers -/

@[simp] theorem State.getV_setV_self (s : State) (x : Reg) (b : Byte) : (s.setV x b).getV x = b := by
  simp [State.getV]

theorem State.getV_setV (s : State) (x r : Reg) (b : Byte) :
    (s.setV x b).getV r = if x = r then b else s.getV r := by
  simp only [State.getV, State.setV_v, Vector.getElem_set, Fin.ext_iff]

@[simp] theorem State.getV_setV_of_ne (s : State) {x r : Reg} (b : Byte) (h : r ≠ x) :
    (s.setV x b).getV r = s.getV r := by
  rw [State.getV_setV, if_neg (Ne.symm h)]

/-- Two states with the same registers read alike. -/
theorem State.v_eq_of_getV {s t : State} (h : ∀ r, s.getV r = t.getV r) : s.v = t.v :=
  Vector.ext fun i hi => h ⟨i, hi⟩

/-- The rewind undoes the advance (45_key_timer_fx R115). -/
@[simp] theorem State.rewind_advance (s : State) : s.advance.rewind = s := by
  simp [State.rewind, State.advance, State.setPc]

end Sys2Proof.Machine
end

