-- ==== Sys2Proof/Laws/Display.lean ====
section
/-! SUPPORT. The laws of the display and of the sprite blit: the blit, which goes bit by bit, said pixel by pixel
(44_index_random_draw R105, R106). -/

namespace Sys2Proof.Machine

/-! ## Single pixels -/

@[simp] theorem Display.pixel_blank (r : Fin 32) (c : Fin 64) : Display.blank.pixel r c = false := by
  simp [Display.pixel, Display.blank]

theorem Display.pixel_flip (d : Display) (r r' : Fin 32) (c c' : Fin 64) :
    (d.flip r c).pixel r' c' = (d.pixel r' c' ^^ decide (r = r' ∧ c = c')) := by
  unfold Display.pixel Display.flip
  rw [Vector.getElem_set]
  by_cases hr : r = r'
  · subst hr
    rw [if_pos rfl, Vector.getElem_set]
    by_cases hc : c = c'
    · subst hc; simp
    · rw [if_neg (fun h => hc (Fin.ext h))]; simp [hc]
  · rw [if_neg (fun h => hr (Fin.ext h))]; simp [hr]

/-- Two displays with the same pixels are the same. -/
theorem Display.ext_pixel {d d' : Display} (h : ∀ r c, d.pixel r c = d'.pixel r c) : d = d' :=
  Vector.ext fun r hr => Vector.ext fun c hc => h ⟨r, hr⟩ ⟨c, hc⟩

/-! ## One sprite bit -/

theorem plotBit_pixel (R C : Nat) (bit : Bool) (b : Blit) (r : Fin 32) (c : Fin 64) :
    (plotBit R C bit b).disp.pixel r c = (b.disp.pixel r c ^^ decide ((R, C, bit) = (r.val, c.val, true))) := by
  unfold plotBit
  split
  · next h =>
    cases bit with
    | false => simp
    | true => simp [Display.pixel_flip, Fin.ext_iff]
  · next h =>
    have : ¬ (R, C, bit) = (r.val, c.val, true) := by
      rintro heq
      cases heq
      exact h ⟨r.isLt, c.isLt⟩
    simp [this]

theorem plotBit_hit (R C : Nat) (bit : Bool) (b : Blit) :
    (plotBit R C bit b).hit = true ↔
      b.hit = true ∨ ∃ (r : Fin 32) (c : Fin 64), (R, C, bit) = (r.val, c.val, true) ∧ b.disp.pixel r c = true := by
  unfold plotBit
  split
  · next h =>
    cases bit with
    | false => simp
    | true =>
      simp only [if_true, Bool.or_eq_true]
      refine or_congr_right ⟨fun hp => ⟨⟨R, h.1⟩, ⟨C, h.2⟩, rfl, hp⟩, ?_⟩
      rintro ⟨r, c, heq, hp⟩
      cases heq
      exact hp
  · next h =>
    refine ⟨.inl, ?_⟩
    rintro (hb | ⟨r, c, heq, -⟩)
    · exact hb
    · cases heq
      exact absurd ⟨r.isLt, c.isLt⟩ h

/-! ## A list of sprite bits at distinct positions -/

/-- Sprite bits plotted in order: each a row, a column and a bit. -/
def runPlots (plots : List (Nat × Nat × Bool)) (b : Blit) : Blit :=
  plots.foldl (fun b p => plotBit p.1 p.2.1 p.2.2 b) b

/-- No two of the plots are at one position. -/
abbrev DistinctPlots (plots : List (Nat × Nat × Bool)) : Prop :=
  plots.Pairwise (fun p q => ¬ (p.1 = q.1 ∧ p.2.1 = q.2.1))

/-- Each pixel is toggled exactly if its plot carries a 1. -/
theorem runPlots_pixel {plots : List (Nat × Nat × Bool)} (h : DistinctPlots plots) (b : Blit) (r : Fin 32) (c : Fin 64) :
    (runPlots plots b).disp.pixel r c = (b.disp.pixel r c ^^ decide ((r.val, c.val, true) ∈ plots)) := by
  induction plots generalizing b with
  | nil => simp [runPlots]
  | cons p ps ih =>
    obtain ⟨hp, hps⟩ := List.pairwise_cons.1 h
    have := ih hps (plotBit p.1 p.2.1 p.2.2 b)
    rw [plotBit_pixel] at this
    rw [show runPlots (p :: ps) b = runPlots ps (plotBit p.1 p.2.1 p.2.2 b) from rfl, this, Bool.xor_assoc]
    congr 1
    by_cases heq : p = (r.val, c.val, true)
    · have hn : (r.val, c.val, true) ∉ ps := fun hm => hp _ hm (by simp [heq])
      simp [heq, hn]
    · have heq' : ¬ (r.val, c.val, true) = p := fun h' => heq h'.symm
      simp [heq, heq']

/-- The hit flag says whether a plotted 1 fell on a pixel that was set before. -/
theorem runPlots_hit {plots : List (Nat × Nat × Bool)} (h : DistinctPlots plots) (b : Blit) :
    (runPlots plots b).hit = true ↔
      b.hit = true ∨ ∃ (r : Fin 32) (c : Fin 64), (r.val, c.val, true) ∈ plots ∧ b.disp.pixel r c = true := by
  induction plots generalizing b with
  | nil => simp [runPlots]
  | cons p ps ih =>
    obtain ⟨hp, hps⟩ := List.pairwise_cons.1 h
    rw [show runPlots (p :: ps) b = runPlots ps (plotBit p.1 p.2.1 p.2.2 b) from rfl, ih hps, plotBit_hit, or_assoc]
    refine or_congr_right ⟨?_, ?_⟩
    · rintro (⟨r, c, heq, hpix⟩ | ⟨r, c, hm, hpix⟩)
      · exact ⟨r, c, by simp [← heq], hpix⟩
      · refine ⟨r, c, by simp [hm], ?_⟩
        rw [plotBit_pixel] at hpix
        have hne : ¬ p = (r.val, c.val, true) := fun heq => hp _ hm (by simp [heq])
        simpa [hne] using hpix
    · rintro ⟨r, c, hm, hpix⟩
      rcases List.mem_cons.1 hm with heq | hm
      · exact .inl ⟨r, c, heq.symm, hpix⟩
      · refine .inr ⟨r, c, hm, ?_⟩
        have hne : ¬ p = (r.val, c.val, true) := fun heq => hp _ hm (by simp [heq])
        rw [plotBit_pixel]
        simpa [hne] using hpix

/-! ## The plots of a sprite -/

/-- The plots of one sprite row. -/
def rowPlots (cx r : Nat) (row : Byte) : List (Nat × Nat × Bool) :=
  [7, 6, 5, 4, 3, 2, 1, 0].map (fun k => (r, cx + (7 - k), row.getLsbD k))

/-- The plots of all rows, in order. -/
def spritePlots (cx : Nat) : Nat → List Byte → List (Nat × Nat × Bool)
  | _, [] => []
  | r, row :: rows => rowPlots cx r row ++ spritePlots cx (r + 1) rows

theorem blitRows_eq_runPlots (cx r : Nat) (rows : List Byte) (b : Blit) :
    blitRows cx r rows b = runPlots (spritePlots cx r rows) b := by
  induction rows generalizing r b with
  | nil => rfl
  | cons row rows ih =>
    rw [blitRows, spritePlots, ih]
    unfold runPlots
    rw [List.foldl_append]
    rfl

theorem mem_rowPlots {cx r : Nat} {row : Byte} {p : Nat × Nat × Bool} :
    p ∈ rowPlots cx r row ↔ ∃ j < 8, p = (r, cx + j, row.getLsbD (7 - j)) := by
  constructor
  · intro h
    obtain ⟨k, hk, rfl⟩ := List.mem_map.1 h
    have hk : k < 8 := by simp at hk; omega
    exact ⟨7 - k, by omega, by rw [show 7 - (7 - k) = k by omega]⟩
  · rintro ⟨j, hj, rfl⟩
    exact List.mem_map.2 ⟨7 - j, by simp; omega, by rw [show 7 - (7 - j) = j by omega]⟩

theorem mem_spritePlots {cx r : Nat} {rows : List Byte} {p : Nat × Nat × Bool} :
    p ∈ spritePlots cx r rows ↔
      ∃ i < rows.length, ∃ j < 8, p = (r + i, cx + j, (rows.getD i 0).getLsbD (7 - j)) := by
  induction rows generalizing r with
  | nil => simp [spritePlots]
  | cons row rows ih =>
    rw [spritePlots, List.mem_append, mem_rowPlots, ih]
    constructor
    · rintro (⟨j, hj, rfl⟩ | ⟨i, hi, j, hj, rfl⟩)
      · exact ⟨0, by simp, j, hj, rfl⟩
      · exact ⟨i + 1, by simpa using hi, j, hj, by simp [Nat.add_assoc, Nat.add_comm 1 i]⟩
    · rintro ⟨i, hi, j, hj, rfl⟩
      cases i with
      | zero => exact .inl ⟨j, hj, rfl⟩
      | succ i => exact .inr ⟨i, by simpa using hi, j, hj, by simp [Nat.add_assoc, Nat.add_comm 1 i]⟩

theorem distinct_spritePlots (cx r : Nat) (rows : List Byte) : DistinctPlots (spritePlots cx r rows) := by
  induction rows generalizing r with
  | nil => simp [spritePlots]
  | cons row rows ih =>
    rw [spritePlots]
    refine List.pairwise_append.2 ⟨?_, ih _, ?_⟩
    · simp [rowPlots]
    · intro p hp q hq
      obtain ⟨j, -, rfl⟩ := mem_rowPlots.1 hp
      obtain ⟨i, -, j', -, rfl⟩ := mem_spritePlots.1 hq
      simp only; omega

/-- A pixel's plot carries a 1 exactly if its sprite bit is 1. -/
theorem mem_spritePlots_iff_spriteBit (cx cy : Nat) (rows : List Byte) (r c : Nat) :
    (r, c, true) ∈ spritePlots cx cy rows ↔ spriteBit cx cy rows r c = true := by
  rw [mem_spritePlots]
  unfold spriteBit
  rw [Bool.and_eq_true, decide_eq_true_eq]
  constructor
  · rintro ⟨i, hi, j, hj, heq⟩
    obtain ⟨rfl, rfl, hb⟩ : r = cy + i ∧ c = cx + j ∧ true = (rows.getD i 0).getLsbD (7 - j) := by
      simpa using heq
    refine ⟨by omega, ?_⟩
    rw [Nat.add_sub_cancel_left, Nat.add_sub_cancel_left, ← hb]
  · rintro ⟨⟨h1, h2, h3⟩, hb⟩
    refine ⟨r - cy, ?_, c - cx, by omega, ?_⟩
    · by_contra hn
      rw [List.getD_eq_default _ _ (by omega)] at hb
      simp at hb
    · rw [hb, show cy + (r - cy) = r by omega, show cx + (c - cx) = c by omega]

/-! ## DRW -/

/-- The display after the blit of DRW: each pixel is toggled exactly if the bit drawn on it is 1 (R105, R106). -/
theorem drawBlit_pixel (s : State) (x y : Reg) (n : Height) (r : Fin 32) (c : Fin 64) :
    (drawBlit s x y n).disp.pixel r c = (s.disp.pixel r c ^^ drawnBit s x y n r c) := by
  unfold drawBlit drawnBit
  rw [blitRows_eq_runPlots, runPlots_pixel (distinct_spritePlots _ _ _)]
  congr 1
  rw [Bool.eq_iff_iff, decide_eq_true_eq]
  exact mem_spritePlots_iff_spriteBit _ _ _ _ _

/-- DRW hits exactly if a bit drawn is 1 on a pixel that was set (R105). -/
theorem drawBlit_hit (s : State) (x y : Reg) (n : Height) :
    (drawBlit s x y n).hit = true ↔ ∃ r c, drawnBit s x y n r c = true ∧ s.disp.pixel r c = true := by
  unfold drawBlit drawnBit
  rw [blitRows_eq_runPlots, runPlots_hit (distinct_spritePlots _ _ _)]
  simp only [Bool.false_eq_true, false_or, mem_spritePlots_iff_spriteBit]

end Sys2Proof.Machine
end

