-- ==== Sys2Proof/Laws/Memory.lean ====
section
/-! SUPPORT. The laws of memory: a write is read back at its address and nowhere else, every operation keeps the
canonical form, and the same for runs of bytes and of registers. -/

namespace Sys2Proof.Machine

/-! ## One byte -/

theorem Memory.read_filter_self (m : Memory) (a : Nat) :
    Memory.read (m.filter (fun c => c.1 != a)) a = Memory.unlisted := by
  induction m with
  | nil => rfl
  | cons c m ih =>
    by_cases h : c.1 = a
    · simpa [List.filter_cons, h] using ih
    · simpa [List.filter_cons, h, Memory.read] using ih

theorem Memory.read_filter_ne (m : Memory) {a k : Nat} (hk : k ≠ a) :
    Memory.read (m.filter (fun c => c.1 != a)) k = m.read k := by
  induction m with
  | nil => rfl
  | cons c m ih =>
    by_cases h : c.1 = a
    · have : c.1 ≠ k := by omega
      simpa [List.filter_cons, h, Memory.read, Ne.symm hk] using ih
    · by_cases h' : c.1 = k <;> simp [h, h', hk, Memory.read, ih]

theorem Memory.read_insertCell_self (m : Memory) (a : Nat) (b : Byte) (h : ∀ c ∈ m, c.1 ≠ a) :
    Memory.read (m.insertCell a b) a = b := by
  induction m with
  | nil => simp [Memory.insertCell, Memory.read]
  | cons c m ih =>
    have hc := h c (by simp)
    have ih := ih fun c' h' => h c' (by simp [h'])
    unfold Memory.insertCell
    split <;> simp [Memory.read, hc, ih]

theorem Memory.read_insertCell_ne (m : Memory) {a k : Nat} (b : Byte) (hk : k ≠ a) :
    Memory.read (m.insertCell a b) k = m.read k := by
  induction m with
  | nil => simp [Memory.insertCell, Memory.read, Ne.symm hk]
  | cons c m ih =>
    unfold Memory.insertCell
    split <;> simp [Memory.read, Ne.symm hk, ih]

/-- A byte written is read back at its address. -/
@[simp] theorem Memory.read_write_self (m : Memory) (a : Nat) (b : Byte) : (m.write a b).read a = b := by
  unfold Memory.write
  split
  · next h => rw [Memory.read_filter_self, h]
  · exact Memory.read_insertCell_self _ _ _ (by simp)

/-- A write leaves every other address alone. -/
@[simp] theorem Memory.read_write_ne (m : Memory) {a k : Nat} (b : Byte) (hk : k ≠ a) :
    (m.write a b).read k = m.read k := by
  unfold Memory.write
  split
  · exact Memory.read_filter_ne m hk
  · rw [Memory.read_insertCell_ne _ _ hk, Memory.read_filter_ne m hk]

/-! ## The canonical form -/

theorem Memory.mem_insertCell {m : Memory} {a : Nat} {b : Byte} {c : Host.Cell} :
    c ∈ m.insertCell a b ↔ c = (a, b) ∨ c ∈ m := by
  induction m with
  | nil => simp [Memory.insertCell]
  | cons d m ih =>
    unfold Memory.insertCell
    split
    · simp
    · simp only [List.mem_cons, ih]
      tauto

theorem Memory.pairwise_insertCell {m : Memory} (a : Nat) (b : Byte) (h : m.Pairwise (fun c c' => c.1 < c'.1))
    (ha : ∀ c ∈ m, c.1 ≠ a) : (m.insertCell a b).Pairwise (fun c c' => c.1 < c'.1) := by
  induction m with
  | nil => simp [Memory.insertCell]
  | cons d m ih =>
    obtain ⟨hd, hm⟩ := List.pairwise_cons.1 h
    unfold Memory.insertCell
    split
    · next hlt =>
      refine List.pairwise_cons.2 ⟨fun c hc => ?_, h⟩
      rcases List.mem_cons.1 hc with rfl | hc
      · exact hlt
      · exact Nat.lt_trans hlt (hd c hc)
    · next hge =>
      refine List.pairwise_cons.2 ⟨fun c hc => ?_, ih hm fun c hc => ha c (by simp [hc])⟩
      rcases Memory.mem_insertCell.1 hc with rfl | hc
      · have := ha d (by simp)
        simp only; omega
      · exact hd c hc

/-- A write inside memory keeps the canonical form. -/
theorem Memory.wf_write {m : Memory} (h : m.wf) {a : Nat} (ha : a < memSize) (b : Byte) : (m.write a b).wf := by
  have hf : (m.filter (fun c => c.1 != a)).Pairwise (fun c c' => c.1 < c'.1) := h.1.filter _
  unfold Memory.write
  split
  · exact ⟨hf, fun c hc => h.2 c (List.mem_filter.1 hc).1⟩
  · next hb =>
    refine ⟨Memory.pairwise_insertCell a b hf (by simp), fun c hc => ?_⟩
    rcases Memory.mem_insertCell.1 hc with rfl | hc
    · exact ⟨ha, hb⟩
    · exact h.2 c (List.mem_filter.1 hc).1

theorem Memory.wf_nil : Memory.wf [] := by simp [Memory.wf]

theorem Memory.wf_tail {c : Host.Cell} {m : Memory} (h : Memory.wf (c :: m)) : Memory.wf m :=
  ⟨(List.pairwise_cons.1 h.1).2, fun d hd => h.2 d (by simp [hd])⟩

theorem Memory.read_eq_unlisted {m : Memory} {a : Nat} (h : ∀ c ∈ m, c.1 ≠ a) : m.read a = Memory.unlisted := by
  induction m with
  | nil => rfl
  | cons c m ih => simp [Memory.read, h c (by simp), ih fun d hd => h d (by simp [hd])]

/-- In canonical form a memory is determined by what it reads as. -/
theorem Memory.ext_of_wf {m m' : Memory} (h : m.wf) (h' : m'.wf) (hr : ∀ a, m.read a = m'.read a) : m = m' := by
  induction m generalizing m' with
  | nil =>
    cases m' with
    | nil => rfl
    | cons c m' =>
      have := hr c.1
      simp only [Memory.read, if_true] at this
      exact absurd this.symm (h'.2 c (by simp)).2
  | cons c m ih =>
    cases m' with
    | nil =>
      have := hr c.1
      simp only [Memory.read, if_true] at this
      exact absurd this (h.2 c (by simp)).2
    | cons c' m' =>
      have hc := (List.pairwise_cons.1 h.1).1
      have hc' := (List.pairwise_cons.1 h'.1).1
      have key : c.1 = c'.1 := by
        rcases Nat.lt_trichotomy c.1 c'.1 with hlt | heq | hgt
        · have := hr c.1
          rw [Memory.read, if_pos rfl, Memory.read_eq_unlisted] at this
          · exact absurd this (h.2 c (by simp)).2
          · intro d hd
            rcases List.mem_cons.1 hd with rfl | hd
            · omega
            · have := hc' d hd; omega
        · exact heq
        · have := hr c'.1
          rw [Memory.read_eq_unlisted (m := c :: m), Memory.read, if_pos rfl] at this
          · exact absurd this.symm (h'.2 c' (by simp)).2
          · intro d hd
            rcases List.mem_cons.1 hd with rfl | hd
            · omega
            · have := hc d hd; omega
      have heq : c = c' := by
        have := hr c.1
        rw [Memory.read, if_pos rfl, Memory.read, if_pos key.symm] at this
        exact Prod.ext key this
      subst heq
      congr 1
      refine ih (Memory.wf_tail h) (Memory.wf_tail h') fun a => ?_
      by_cases ha : c.1 = a
      · subst ha
        rw [Memory.read_eq_unlisted fun d hd => Nat.ne_of_gt (hc d hd),
          Memory.read_eq_unlisted fun d hd => Nat.ne_of_gt (hc' d hd)]
      · have := hr a
        rwa [Memory.read, if_neg ha, Memory.read, if_neg ha] at this

/-! ## Runs of bytes -/

@[simp] theorem Memory.readBytes_length (m : Memory) (base len : Nat) : (m.readBytes base len).length = len := by
  induction len generalizing base with
  | zero => rfl
  | succ len ih => simp [Memory.readBytes, ih]

/-- The i-th byte of a run is the byte at base + i. -/
theorem Memory.readBytes_getElem? (m : Memory) (base len i : Nat) :
    (m.readBytes base len)[i]? = if i < len then some (m.read (base + i)) else none := by
  induction len generalizing base i with
  | zero => simp [Memory.readBytes]
  | succ len ih =>
    cases i with
    | zero => simp [Memory.readBytes]
    | succ i =>
      simp only [Memory.readBytes, List.getElem?_cons_succ, ih, Nat.add_lt_add_iff_right,
        show base + 1 + i = base + (i + 1) by omega]

/-- Writing a run of bytes: inside the run the byte written, elsewhere what was there. -/
theorem Memory.read_writeBytes (m : Memory) (base : Nat) (bs : List Byte) (k : Nat) :
    (m.writeBytes base bs).read k =
      if base ≤ k ∧ k < base + bs.length then bs.getD (k - base) 0 else m.read k := by
  induction bs generalizing m base with
  | nil =>
    simp only [Memory.writeBytes, List.length_nil, Nat.add_zero]
    rw [if_neg (by omega)]
  | cons b bs ih =>
    simp only [Memory.writeBytes, ih, List.length_cons]
    by_cases hk : k = base
    · subst hk
      rw [if_neg (by omega), if_pos (by omega), Memory.read_write_self]
      simp
    · rw [Memory.read_write_ne _ _ hk]
      by_cases h : base + 1 ≤ k ∧ k < base + 1 + bs.length
      · rw [if_pos h, if_pos (by omega)]
        obtain ⟨j, rfl⟩ : ∃ j, k = base + (j + 1) := ⟨k - base - 1, by omega⟩
        simp [show base + (j + 1) - (base + 1) = j by omega, show base + (j + 1) - base = j + 1 by omega]
      · rw [if_neg h, if_neg (by omega)]

/-- Outside a run of bytes written, memory reads as before. -/
theorem Memory.read_writeBytes_outside (m : Memory) (base : Nat) (bs : List Byte) {k : Nat}
    (h : k < base ∨ base + bs.length ≤ k) : (m.writeBytes base bs).read k = m.read k := by
  rw [Memory.read_writeBytes, if_neg (by omega)]

/-- A run of bytes written inside memory keeps the canonical form. -/
theorem Memory.wf_writeBytes {m : Memory} (h : m.wf) {base : Nat} {bs : List Byte}
    (hb : bs = [] ∨ base + bs.length ≤ memSize) : (m.writeBytes base bs).wf := by
  induction bs generalizing m base with
  | nil => exact h
  | cons b bs ih =>
    have hb : base + (bs.length + 1) ≤ memSize := by simpa using hb
    exact ih (Memory.wf_write h (by omega) b) (.inr (by omega))

/-- A run of bytes written is read back. -/
theorem Memory.readBytes_writeBytes (m : Memory) (base : Nat) (bs : List Byte) :
    (m.writeBytes base bs).readBytes base bs.length = bs := by
  apply List.ext_getElem?
  intro i
  rw [Memory.readBytes_getElem?]
  split
  · next h =>
    rw [Memory.read_writeBytes, if_pos (by omega), Nat.add_sub_cancel_left]
    simp [h]
  · next h => simp [Nat.le_of_not_lt h]

/-! ## Runs of registers -/

/-- Writing registers i, i + 1, ...: inside the run the byte given, elsewhere what was there. -/
theorem writeRegs_getElem (v : Vector Byte 16) (i : Nat) (bs : List Byte) (k : Nat) (hk : k < 16) :
    (writeRegs v i bs)[k] = if i ≤ k ∧ k < i + bs.length then bs.getD (k - i) 0 else v[k] := by
  induction bs generalizing v i with
  | nil =>
    simp only [writeRegs, List.length_nil, Nat.add_zero]
    rw [if_neg (by omega)]
  | cons b bs ih =>
    simp only [writeRegs, ih, List.length_cons, Vector.getElem_setIfInBounds]
    by_cases hki : k = i
    · subst hki
      rw [if_neg (by omega), if_pos rfl, if_pos (by omega)]
      simp
    · by_cases h : i + 1 ≤ k ∧ k < i + 1 + bs.length
      · rw [if_pos h, if_pos (by omega)]
        obtain ⟨j, rfl⟩ : ∃ j, k = i + (j + 1) := ⟨k - i - 1, by omega⟩
        simp [show i + (j + 1) - (i + 1) = j by omega, show i + (j + 1) - i = j + 1 by omega]
      · rw [if_neg h, if_neg (Ne.symm hki), if_neg (by omega)]

end Sys2Proof.Machine
end

