-- ==== Sys2Proof/Laws/Ops.lean ====
section
/-! SUPPORT. One lemma for each shared operation, saying once what it can do: range checks, fault entry, flag writes,
the fetch, the timer actor and the host. -/

namespace Sys2Proof.Machine

/-! ## Ranges -/

theorem firstOutOfRange_eq_none {base len : Nat} :
    firstOutOfRange base len = none ↔ len = 0 ∨ base + len ≤ memSize := by
  unfold firstOutOfRange; split <;> simp_all

theorem firstOutOfRange_eq_some {base len a : Nat} :
    firstOutOfRange base len = some a ↔ len ≠ 0 ∧ memSize < base + len ∧ a = max base memSize := by
  unfold firstOutOfRange
  split
  · simp only [reduceCtorEq, false_iff]; omega
  · simp only [Option.some.injEq]
    constructor
    · rintro rfl; omega
    · rintro ⟨-, -, rfl⟩; rfl

/-- The address that `firstOutOfRange` answers is in the range, outside memory, and the first such (20_memory R45). -/
theorem firstOutOfRange_first {base len a : Nat} (h : firstOutOfRange base len = some a) :
    base ≤ a ∧ a < base + len ∧ memSize ≤ a ∧ ∀ k, base ≤ k → k < a → k < memSize := by
  obtain ⟨h0, h1, rfl⟩ := firstOutOfRange_eq_some.1 h
  refine ⟨by omega, by omega, by omega, fun k h2 h3 => by omega⟩

/-- Inside memory, `completeInRange` completes. -/
theorem completeInRange_of_inside {base len : Nat} (h : len = 0 ∨ base + len ≤ memSize) (i : Instr) (s t : State) :
    completeInRange base len i s t = .next t := by
  unfold completeInRange
  rw [firstOutOfRange_eq_none.2 h]

/-- Outside memory, `completeInRange` raises OutOfBounds for the first outside address. -/
theorem completeInRange_of_outside {base len : Nat} (h0 : len ≠ 0) (h : memSize < base + len) (i : Instr) (s t : State) :
    completeInRange base len i s t =
      .next (s.haltWith (.outOfBounds (max base memSize)) (some (encode i))) := by
  unfold completeInRange
  rw [firstOutOfRange_eq_some.2 ⟨h0, h, rfl⟩]
  rfl

/-- What `completeInRange` can answer: the completed state inside memory, the halted one outside. -/
theorem completeInRange_cases {base len : Nat} {i : Instr} {s done t : State}
    (h : completeInRange base len i s done = .next t) :
    (t = done ∧ (len = 0 ∨ base + len ≤ memSize)) ∨
      (t = s.haltWith (.outOfBounds (max base memSize)) (some (encode i)) ∧ len ≠ 0 ∧ memSize < base + len) := by
  by_cases hin : len = 0 ∨ base + len ≤ memSize
  · rw [completeInRange_of_inside hin] at h
    exact .inl ⟨by simpa using h.symm, hin⟩
  · rw [completeInRange_of_outside (by omega) (by omega)] at h
    exact .inr ⟨by simpa using h.symm, by omega, by omega⟩

/-! ## Flags -/

@[simp] theorem State.writeRF_mem (s : State) (x : Reg) (r : Byte) (f : Bool) : (s.writeRF x r f).mem = s.mem := by
  unfold State.writeRF; split <;> rfl
@[simp] theorem State.writeRF_pc (s : State) (x : Reg) (r : Byte) (f : Bool) : (s.writeRF x r f).pc = s.pc := by
  unfold State.writeRF; split <;> rfl
@[simp] theorem State.writeRF_ir (s : State) (x : Reg) (r : Byte) (f : Bool) : (s.writeRF x r f).ir = s.ir := by
  unfold State.writeRF; split <;> rfl
@[simp] theorem State.writeRF_stack (s : State) (x : Reg) (r : Byte) (f : Bool) :
    (s.writeRF x r f).stack = s.stack := by
  unfold State.writeRF; split <;> rfl
@[simp] theorem State.writeRF_dt (s : State) (x : Reg) (r : Byte) (f : Bool) : (s.writeRF x r f).dt = s.dt := by
  unfold State.writeRF; split <;> rfl
@[simp] theorem State.writeRF_st (s : State) (x : Reg) (r : Byte) (f : Bool) : (s.writeRF x r f).st = s.st := by
  unfold State.writeRF; split <;> rfl
@[simp] theorem State.writeRF_disp (s : State) (x : Reg) (r : Byte) (f : Bool) : (s.writeRF x r f).disp = s.disp := by
  unfold State.writeRF; split <;> rfl
@[simp] theorem State.writeRF_key (s : State) (x : Reg) (r : Byte) (f : Bool) : (s.writeRF x r f).key = s.key := by
  unfold State.writeRF; split <;> rfl
@[simp] theorem State.writeRF_exit (s : State) (x : Reg) (r : Byte) (f : Bool) : (s.writeRF x r f).exit = s.exit := by
  unfold State.writeRF; split <;> rfl
@[simp] theorem State.writeRF_mode (s : State) (x : Reg) (r : Byte) (f : Bool) : (s.writeRF x r f).mode = s.mode := by
  unfold State.writeRF; split <;> rfl
@[simp] theorem State.writeRF_timer (s : State) (x : Reg) (r : Byte) (f : Bool) : (s.writeRF x r f).timer = s.timer := by
  unfold State.writeRF; split <;> rfl
@[simp] theorem State.writeRF_params (s : State) (x : Reg) (r : Byte) (f : Bool) :
    (s.writeRF x r f).params = s.params := by
  unfold State.writeRF; split <;> rfl
@[simp] theorem State.writeRF_schedule (s : State) (x : Reg) (r : Byte) (f : Bool) :
    (s.writeRF x r f).schedule = s.schedule := by
  unfold State.writeRF; split <;> rfl
@[simp] theorem State.writeRF_draws (s : State) (x : Reg) (r : Byte) (f : Bool) : (s.writeRF x r f).draws = s.draws := by
  unfold State.writeRF; split <;> rfl

/-- What WriteRF leaves in each register (43_alu R91): the result in V[x], the flag in VF, and for x = F whichever
FLAG_ORDER writes last. -/
theorem State.getV_writeRF (s : State) (x : Reg) (r : Byte) (f : Bool) (k : Reg) :
    (s.writeRF x r f).getV k =
      match s.params.flagOrder with
      | .flagLast => if k = regF then flagByte f else if k = x then r else s.getV k
      | .flagFirst => if k = x then r else if k = regF then flagByte f else s.getV k := by
  cases h : s.params.flagOrder <;> simp only [State.writeRF, h, State.getV_setV, eq_comm (b := k)]

/-! ## The fetch -/

/-- Both bytes in memory: the fetch answers the big-endian word. -/
theorem fetch_of_inside {s : State} (h : s.pc.toNat + 2 ≤ memSize) :
    fetch s = .ok (wordOfBytes (s.mem.read s.pc.toNat) (s.mem.read (s.pc.toNat + 1))) := by
  unfold fetch
  rw [firstOutOfRange_eq_none.2 (.inr h)]

/-- A byte outside memory: the fetch raises OutOfBounds for the first of the two. -/
theorem fetch_of_outside {s : State} (h : memSize < s.pc.toNat + 2) :
    fetch s = .error (.outOfBounds (max s.pc.toNat memSize)) := by
  unfold fetch
  rw [firstOutOfRange_eq_some.2 ⟨by omega, h, rfl⟩]

/-- A fetch that answers a word read it inside memory. -/
theorem fetch_inside_of_ok {s : State} {w : Word} (h : fetch s = .ok w) : s.pc.toNat + 2 ≤ memSize := by
  by_contra hn
  rw [fetch_of_outside (by omega)] at h
  cases h

/-- What one step of the engine can do (30_encoding R65, 60_exceptions R129). -/
theorem engineStep_cases (s : State) :
    (memSize < s.pc.toNat + 2 ∧ engineStep s = .next (s.haltWith (.outOfBounds (max s.pc.toNat memSize)) none)) ∨
      (s.pc.toNat + 2 ≤ memSize ∧ ∃ w, fetch s = .ok w ∧
        ((decodeWord w = none ∧ engineStep s = .next (s.haltWith (.invalidInstruction w) (some w))) ∨
          ∃ i, decodeWord w = some i ∧ engineStep s = exec i s)) := by
  by_cases h : s.pc.toNat + 2 ≤ memSize
  · refine .inr ⟨h, _, fetch_of_inside h, ?_⟩
    unfold engineStep
    rw [fetch_of_inside h]
    cases hd : decodeWord (wordOfBytes (s.mem.read s.pc.toNat) (s.mem.read (s.pc.toNat + 1))) with
    | none => exact .inl ⟨rfl, by simp only [hd]; rfl⟩
    | some i => exact .inr ⟨i, rfl, by simp only [hd]⟩
  · refine .inl ⟨by omega, ?_⟩
    unfold engineStep
    rw [fetch_of_outside (by omega)]
    rfl

/-- What the step port can do (60_exceptions R143, R128). -/
theorem runNext_cases (s : State) :
    (s.mode = .running ∧ runNext s = engineStep s) ∨ ∃ r, s.mode = .halted r ∧ runNext s = .fault (.halted r) := by
  unfold runNext
  cases h : s.mode with
  | running => exact .inl ⟨rfl, rfl⟩
  | halted r => exact .inr ⟨r, rfl, rfl⟩

/-- What a step can do: nothing is scheduled and the step port is called, or the first scheduled action happens. -/
theorem step_cases' (s : State) :
    (s.schedule = [] ∧ cycle s = runNext s) ∨
      ∃ e rest, s.schedule = e :: rest ∧ cycle s = act e (s.setSchedule rest) := by
  unfold cycle
  cases h : s.schedule with
  | nil => exact .inl ⟨rfl, rfl⟩
  | cons e rest => exact .inr ⟨e, rest, rfl, rfl⟩

/-! ## The timer actor and the host -/

/-- A tick decrement never goes below 0 and takes at most 1 (60_exceptions R134). -/
theorem decTimer_toNat (b : Byte) : (decTimer b).toNat = b.toNat - 1 := by
  unfold decTimer
  split
  · next h => simp [h]
  · next h =>
    have : b.toNat ≠ 0 := fun h' => h (BitVec.eq_of_toNat_eq (by simpa using h'))
    rw [BitVec.toNat_sub]
    have := b.isLt
    simp only [BitVec.ofNat_eq_ofNat, BitVec.toNat_ofNat]
    omega

/-- All that an action of the timer actor can change: the timers, by a decrement, and its own phase (60_exceptions R145). -/
theorem periodBoundary_eq (s : State) : ∃ t, periodBoundary s = s.setTimer t := by
  unfold periodBoundary
  split
  · split
    · exact ⟨_, rfl⟩
    · exact ⟨_, rfl⟩
  all_goals exact ⟨s.timer, rfl⟩

theorem decDelay_eq (s : State) :
    decDelay s = s ∨ ∃ t, decDelay s = (s.setDt (decTimer s.dt)).setTimer t := by
  unfold decDelay
  split
  · exact .inl rfl
  · exact .inr ⟨_, rfl⟩
  · exact .inr ⟨_, rfl⟩
  · exact .inl rfl
  · exact .inl rfl

theorem decSound_eq (s : State) :
    decSound s = s ∨ ∃ t, decSound s = (s.setSt (decTimer s.st)).setTimer t := by
  unfold decSound
  split
  · exact .inl rfl
  · exact .inr ⟨_, rfl⟩
  · exact .inl rfl
  · exact .inr ⟨_, rfl⟩
  · exact .inl rfl

/-- What a period boundary does, phase by phase: it starts a tick or stops a waiting actor, and else changes nothing. -/
theorem periodBoundary_cases (s : State) :
    (s.timer = .waiting ∧ terminated s = true ∧ periodBoundary s = s.setTimer .stopped) ∨
      (s.timer = .waiting ∧ terminated s = false ∧ periodBoundary s = s.setTimer .bothDue) ∨
      (s.timer ≠ .waiting ∧ periodBoundary s = s) := by
  unfold periodBoundary
  cases ht : s.timer <;> cases hs : terminated s <;> simp

/-- What DecDelay does, phase by phase: it decrements DT where it is due, and else changes nothing. -/
theorem decDelay_cases (s : State) :
    (s.timer = .bothDue ∧ decDelay s = (s.setDt (decTimer s.dt)).setTimer .soundDue) ∨
      (s.timer = .delayDue ∧ decDelay s = (s.setDt (decTimer s.dt)).setTimer .waiting) ∨
      (s.timer ≠ .bothDue ∧ s.timer ≠ .delayDue ∧ decDelay s = s) := by
  unfold decDelay
  cases s.timer <;> simp

/-- What DecSound does, phase by phase: it decrements ST where it is due, and else changes nothing. -/
theorem decSound_cases (s : State) :
    (s.timer = .bothDue ∧ decSound s = (s.setSt (decTimer s.st)).setTimer .delayDue) ∨
      (s.timer = .soundDue ∧ decSound s = (s.setSt (decTimer s.st)).setTimer .waiting) ∨
      (s.timer ≠ .bothDue ∧ s.timer ≠ .soundDue ∧ decSound s = s) := by
  unfold decSound
  cases s.timer <;> simp

theorem setCurrentKey_eq (k : Option Key) (s : State) :
    setCurrentKey k s = s ∨ (s.mode = .running ∧ setCurrentKey k s = s.setKey k) := by
  unfold setCurrentKey
  cases h : s.mode with
  | running => exact .inr ⟨rfl, rfl⟩
  | halted r => exact .inl rfl

theorem requestExit_eq (s : State) :
    requestExit s = s ∨ (s.mode = .running ∧ requestExit s = s.setExit true) := by
  unfold requestExit
  cases h : s.mode with
  | running => exact .inr ⟨rfl, rfl⟩
  | halted r => exact .inl rfl

/-- Every action but a call of the step port answers a next state. -/
theorem act_next_of_ne {e : Event} (h : e ≠ .runNextInstruction) (s : State) : ∃ t, act e s = .next t := by
  cases e with
  | runNextInstruction => exact absurd rfl h
  | periodBoundary => exact ⟨_, rfl⟩
  | decDelay => exact ⟨_, rfl⟩
  | decSound => exact ⟨_, rfl⟩
  | setCurrentKey k => exact ⟨_, rfl⟩
  | requestExit => exact ⟨_, rfl⟩
  | getDisplay => exact ⟨_, rfl⟩

end Sys2Proof.Machine
end

