-- ==== Sys2Proof/Laws/Exec.lean ====
section
/-! SUPPORT. What an instruction can do, said once: it leaves the state of its own effect, or it enters the fault that
the spec gives it, or it is refused. -/

namespace Sys2Proof.Machine

/-- The state that an instruction's own effect leaves. -/
def effectOf : Instr → State → State
  | .cls, s => s.advance.setDisp Display.blank
  | .ret, s => (s.advance.setStack s.stack.dropLast).setPc (s.stack.getLast?.getD 0)
  | .jp nnn, s => s.advance.setPc (zextAddr nnn)
  | .call nnn, s => (s.advance.setStack (s.stack ++ [s.advance.pc])).setPc (zextAddr nnn)
  | .seImm x nn, s => s.advance.skipIf (s.getV x == nn)
  | .sneImm x nn, s => s.advance.skipIf (s.getV x != nn)
  | .seReg x y, s => s.advance.skipIf (s.getV x == s.getV y)
  | .ldImm x nn, s => s.advance.setV x nn
  | .addImm x nn, s => s.advance.setV x (s.getV x + nn)
  | .ldReg x y, s => s.advance.setV x (s.getV y)
  | .or x y, s => s.advance.setV x (s.getV x ||| s.getV y)
  | .and x y, s => s.advance.setV x (s.getV x &&& s.getV y)
  | .xor x y, s => s.advance.setV x (s.getV x ^^^ s.getV y)
  | .addReg x y, s => s.advance.writeRF x (s.getV x + s.getV y) (carryOut (s.getV x) (s.getV y))
  | .sub x y, s => s.advance.writeRF x (s.getV x - s.getV y) (noBorrow (s.getV x) (s.getV y))
  | .shr x y, s => s.advance.writeRF x (shiftee s x y >>> 1) (shiftedOutLow (shiftee s x y))
  | .subn x y, s => s.advance.writeRF x (s.getV y - s.getV x) (noBorrow (s.getV y) (s.getV x))
  | .shl x y, s => s.advance.writeRF x (shiftee s x y <<< 1) (shiftedOutHigh (shiftee s x y))
  | .sneReg x y, s => s.advance.skipIf (s.getV x != s.getV y)
  | .ldI nnn, s => s.advance.setIr (zextAddr nnn)
  | .jpV0 nnn, s => s.advance.setPc (zextAddr nnn + zextByte (s.getV (jumpOffsetReg s.params nnn)))
  | .rnd x nn, s => (s.advance.setV x (nn &&& Config.randomByte s.draws)).setDraws (s.draws + 1)
  | .drw x y n, s => (s.advance.setDisp (drawBlit s x y n).disp).setV regF (flagByte (drawBlit s x y n).hit)
  | .skp x, s => (s.advance.setKey (keyAfterSkip s.params.keySkipConsume s.key (s.getV x))).skipIf
      (keyMatches s.key (s.getV x))
  | .sknp x, s => (s.advance.setKey (keyAfterSkip s.params.keySkipConsume s.key (s.getV x))).skipIf
      (!keyMatches s.key (s.getV x))
  | .ldVDt x, s => s.advance.setV x s.dt
  | .ldVK x, s => match s.key with
    | none => s.advance.rewind
    | some k => (s.advance.setV x (keyByte k)).setKey none
  | .ldDtV x, s => s.advance.setDt (s.getV x)
  | .ldStV x, s => s.advance.setSt (s.getV x)
  | .ldIV x, s => s.advance.setIr (indexFromReg s x)
  | .ldF x, s => s.advance.setIr (glyphAddress s.params (s.getV x))
  | .ldB x, s => s.advance.setMem (s.mem.writeBytes s.ir.toNat (bcdDigits (s.getV x)))
  | .ldMemV x, s => s.advance.setMem (s.mem.writeBytes s.ir.toNat (regsUpTo s x))
  | .ldVMem x, s => s.advance.setRegs (writeRegs s.v 0 (s.mem.readBytes s.ir.toNat (x.val + 1)))

/-- How many addresses from ir an instruction accesses (20_memory R49). -/
def accessLength : Instr → Nat
  | .drw _ _ n => n.val
  | .ldB _ => 3
  | .ldMemV x => x.val + 1
  | .ldVMem x => x.val + 1
  | _ => 0

/-- The fault that an instruction's own check raises, if it does (60_exceptions R129). -/
def ownFault (i : Instr) (s : State) : Option EngineFault :=
  match i with
  | .ret => if s.stack = [] then some .stackUnderflow else none
  | .call _ => if stackDepth ≤ s.stack.length then some .stackOverflow else none
  | i => (firstOutOfRange s.ir.toNat (accessLength i)).map .outOfBounds

/-- What exec answers, for every instruction: the fault of its own check, or its refusal (Fx29 above 0xF only), or the
state of its own effect. -/
theorem exec_eq (i : Instr) (s : State) :
    exec i s =
      match ownFault i s with
      | some f => .next (s.haltWith f (some (encode i)))
      | none =>
        match i with
        | .ldF x => if 0xF < (s.getV x).toNat then .refused (.unspecifiedGlyph (s.getV x)) else .next (effectOf i s)
        | _ => .next (effectOf i s) := by
  have range : ∀ (len : Nat) (i : Instr) (t : State), completeInRange s.ir.toNat len i s t =
      match (firstOutOfRange s.ir.toNat len).map EngineFault.outOfBounds with
      | some f => .next (s.haltWith f (some (encode i)))
      | none => .next t := by
    intro len i t
    unfold completeInRange
    cases firstOutOfRange s.ir.toNat len <;> rfl
  cases i with
  | ret =>
    simp only [exec, execRet, ownFault, effectOf]
    cases h : s.stack.getLast? with
    | none => rw [List.getLast?_eq_none_iff] at h; simp [h, raise]
    | some t =>
      have : s.stack ≠ [] := by rintro h'; simp [h'] at h
      simp [this]
  | call nnn =>
    simp only [exec, execCall, ownFault, effectOf]
    split <;> simp_all [raise]
  | ldVK x =>
    simp only [exec, execLdVK, effectOf]
    cases s.key <;> rfl
  | drw x y n => exact range _ _ _
  | ldB x => exact range _ _ _
  | ldMemV x => exact range _ _ _
  | ldVMem x => exact range _ _ _
  | _ => rfl

/-- A next state is the state of the instruction's own effect, or its fault entry. -/
theorem exec_next_cases {i : Instr} {s t : State} (h : exec i s = .next t) :
    (ownFault i s = none ∧ t = effectOf i s) ∨ ∃ f, ownFault i s = some f ∧ t = s.haltWith f (some (encode i)) := by
  rw [exec_eq] at h
  cases hf : ownFault i s with
  | some f => rw [hf] at h; exact .inr ⟨f, rfl, by simpa using h.symm⟩
  | none =>
    rw [hf] at h
    refine .inl ⟨rfl, ?_⟩
    cases i
    case ldF x =>
      simp only at h
      split at h
      · cases h
      · simpa using h.symm
    all_goals simpa using h.symm

/-- exec never answers a fault. -/
theorem exec_ne_fault (i : Instr) (s : State) (f : Fault) : exec i s ≠ .fault f := by
  rw [exec_eq]
  cases ownFault i s with
  | some f => simp
  | none =>
    cases i
    case ldF x => simp only; split <;> simp
    all_goals simp

end Sys2Proof.Machine
end

