-- ==== Sys2Proof/Laws/Operands.lean ====
section
/-! SUPPORT. One lemma for each operand form and flag computation, which says what it gives. -/

namespace Sys2Proof.Machine

@[simp] theorem zextAddr_toNat (nnn : Addr12) : (zextAddr nnn).toNat = nnn.toNat := by
  have := nnn.isLt
  simp only [zextAddr, BitVec.zeroExtend, BitVec.toNat_setWidth]
  omega

@[simp] theorem zextByte_toNat (b : Byte) : (zextByte b).toNat = b.toNat := by
  have := b.isLt
  simp only [zextByte, BitVec.zeroExtend, BitVec.toNat_setWidth]
  omega

/-- Two advances are one by 4: a taken skip (42_skip_immediate R90). -/
theorem add_two_two (a : Word) : a + 2#16 + 2#16 = a + 4#16 := by
  rw [BitVec.add_assoc]
  rfl

theorem keyByte_toNat (k : Key) : (keyByte k).toNat = k.val := by
  have := k.isLt
  simp only [keyByte, BitVec.toNat_ofNat]
  omega

/-- A key matches a register exactly if it is a key with that number (45_key_timer_fx R108). -/
theorem keyMatches_iff (k : Option Key) (v : Byte) : keyMatches k v = true ↔ k.map Fin.val = some v.toNat := by
  cases k with
  | none => simp [keyMatches]
  | some k => simp [keyMatches, ← BitVec.toNat_inj, keyByte_toNat]

/-- The glyph address is the exact sum where it is below 65536 (45_key_timer_fx R116, R117). -/
theorem glyphAddress_toNat (p : Params) (v : Byte) (h : p.fontBase + v.toNat * glyphStrideBytes p.glyphStride < 65536) :
    (glyphAddress p v).toNat = p.fontBase + v.toNat * glyphStrideBytes p.glyphStride := by
  rw [glyphAddress, BitVec.toNat_ofNat, Nat.mod_eq_of_lt h]

@[simp] theorem bcdDigits_length (v : Byte) : (bcdDigits v).length = 3 := rfl

@[simp] theorem regsUpTo_length (s : State) (x : Reg) : (regsUpTo s x).length = x.val + 1 := by
  have := x.isLt
  simp only [regsUpTo, List.length_take, Vector.length_toList]
  omega

/-- The i-th of the spilled bytes is V[i] (45_key_timer_fx R119). -/
theorem regsUpTo_getD (s : State) {x i : Reg} (h : i ≤ x) : (regsUpTo s x).getD i.val 0 = s.getV i := by
  have h' : i.val < x.val + 1 := Nat.lt_succ_of_le h
  simp [regsUpTo, List.getD_eq_getElem?_getD, State.getV, h']

/-- The i-th of the bytes read from base is the byte at base + i. -/
theorem Memory.readBytes_getD (m : Memory) (base : Nat) {len i : Nat} (h : i < len) :
    (m.readBytes base len).getD i 0 = m.read (base + i) := by
  rw [List.getD_eq_getElem?_getD, Memory.readBytes_getElem?, if_pos h]
  rfl

theorem flagByte_toNat (f : Bool) : (flagByte f).toNat = if f then 1 else 0 := by
  cases f <;> rfl

theorem flagByte_eq_one (f : Bool) : flagByte f = 1 ↔ f = true := by
  cases f <;> decide

theorem carryOut_iff (a b : Byte) : carryOut a b = true ↔ 255 < a.toNat + b.toNat := by
  simp [carryOut]

theorem noBorrow_iff (a b : Byte) : noBorrow a b = true ↔ b.toNat ≤ a.toNat := by
  simp [noBorrow]

theorem shiftedOutLow_toNat (a : Byte) : (flagByte (shiftedOutLow a)).toNat = a.toNat % 2 := by
  rw [flagByte_toNat, shiftedOutLow]
  have : a.getLsbD 0 = decide (a.toNat % 2 = 1) := by
    simp [BitVec.getLsbD, Nat.testBit_zero]
  rw [this]
  split <;> simp_all

theorem shiftedOutHigh_toNat (a : Byte) : (flagByte (shiftedOutHigh a)).toNat = a.toNat / 128 := by
  have ha := a.isLt
  rw [flagByte_toNat, shiftedOutHigh]
  have : a.getLsbD 7 = decide (a.toNat / 128 % 2 = 1) := by
    simp [BitVec.getLsbD, Nat.testBit_eq_decide_div_mod_eq]
  rw [this]
  split <;> simp_all <;> omega

end Sys2Proof.Machine
end

