-- ==== Sys2Proof/Laws/PerInstr.lean ====
section
/-! SUPPORT. Statements for all instructions, one lemma for each constructor: the word of an instruction is of the
instruction's own row of the opcode table (30_encoding R71). -/

namespace Sys2Proof.Laws.EncodesItsRow

/-- The word that the encoder gives is covered by the row of the opcode table with the instruction's mnemonic. -/
def Statement (i : Instr) : Prop := ∃ r ∈ opcodeTable, r.mnemonic = i.mnemonic ∧ r.covers (encode i) = true

theorem fxyn_low (f x y n : BitVec 4) : wordFXYN f x y n &&& (0xF00F : Word) = wordFXYN f 0 0 n := by
  apply BitVec.eq_of_getLsbD_eq
  intro i hi
  rw [BitVec.getLsbD_and, getLsbD_wordFXYN, getLsbD_wordFXYN]
  interval_cases i <;> simp

theorem fxyn_top (f x y n : BitVec 4) : wordFXYN f x y n &&& (0xF000 : Word) = wordFXYN f 0 0 0 := by
  apply BitVec.eq_of_getLsbD_eq
  intro i hi
  rw [BitVec.getLsbD_and, getLsbD_wordFXYN, getLsbD_wordFXYN]
  interval_cases i <;> simp

theorem fxnn_low (f x : BitVec 4) (nn : Byte) : wordFXNN f x nn &&& (0xF0FF : Word) = wordFXNN f 0 nn := by
  apply BitVec.eq_of_getLsbD_eq
  intro i hi
  rw [BitVec.getLsbD_and, getLsbD_wordFXNN, getLsbD_wordFXNN]
  interval_cases i <;> simp

theorem fxnn_top (f x : BitVec 4) (nn : Byte) : wordFXNN f x nn &&& (0xF000 : Word) = wordFXNN f 0 0 := by
  apply BitVec.eq_of_getLsbD_eq
  intro i hi
  rw [BitVec.getLsbD_and, getLsbD_wordFXNN, getLsbD_wordFXNN]
  interval_cases i <;> simp

theorem fnnn_top (f : BitVec 4) (nnn : Addr12) : wordFNNN f nnn &&& (0xF000 : Word) = wordFNNN f 0 := by
  apply BitVec.eq_of_getLsbD_eq
  intro i hi
  rw [BitVec.getLsbD_and, getLsbD_wordFNNN, getLsbD_wordFNNN]
  interval_cases i <;> simp

theorem cls : Statement (.cls) :=
  ⟨⟨"CLS", 0x00E0, 0xFFFF⟩, by decide, rfl, rfl⟩

theorem ret : Statement (.ret) :=
  ⟨⟨"RET", 0x00EE, 0xFFFF⟩, by decide, rfl, rfl⟩

theorem jp (nnn : Addr12) : Statement (.jp nnn) :=
  ⟨⟨"JP", 0x1000, 0xF000⟩, by decide, rfl, by simp only [OpcodeRow.covers, encode, fnnn_top]; decide⟩

theorem call (nnn : Addr12) : Statement (.call nnn) :=
  ⟨⟨"CALL", 0x2000, 0xF000⟩, by decide, rfl, by simp only [OpcodeRow.covers, encode, fnnn_top]; decide⟩

theorem seImm (x : Reg) (nn : Byte) : Statement (.seImm x nn) :=
  ⟨⟨"SE_IMM", 0x3000, 0xF000⟩, by decide, rfl, by simp only [OpcodeRow.covers, encode, fxnn_top]; decide⟩

theorem sneImm (x : Reg) (nn : Byte) : Statement (.sneImm x nn) :=
  ⟨⟨"SNE_IMM", 0x4000, 0xF000⟩, by decide, rfl, by simp only [OpcodeRow.covers, encode, fxnn_top]; decide⟩

theorem seReg (x y : Reg) : Statement (.seReg x y) :=
  ⟨⟨"SE_REG", 0x5000, 0xF00F⟩, by decide, rfl, by simp only [OpcodeRow.covers, encode, fxyn_low]; decide⟩

theorem ldImm (x : Reg) (nn : Byte) : Statement (.ldImm x nn) :=
  ⟨⟨"LD_IMM", 0x6000, 0xF000⟩, by decide, rfl, by simp only [OpcodeRow.covers, encode, fxnn_top]; decide⟩

theorem addImm (x : Reg) (nn : Byte) : Statement (.addImm x nn) :=
  ⟨⟨"ADD_IMM", 0x7000, 0xF000⟩, by decide, rfl, by simp only [OpcodeRow.covers, encode, fxnn_top]; decide⟩

theorem ldReg (x y : Reg) : Statement (.ldReg x y) :=
  ⟨⟨"LD_REG", 0x8000, 0xF00F⟩, by decide, rfl, by simp only [OpcodeRow.covers, encode, fxyn_low]; decide⟩

theorem or (x y : Reg) : Statement (.or x y) :=
  ⟨⟨"OR", 0x8001, 0xF00F⟩, by decide, rfl, by simp only [OpcodeRow.covers, encode, fxyn_low]; decide⟩

theorem and (x y : Reg) : Statement (.and x y) :=
  ⟨⟨"AND", 0x8002, 0xF00F⟩, by decide, rfl, by simp only [OpcodeRow.covers, encode, fxyn_low]; decide⟩

theorem xor (x y : Reg) : Statement (.xor x y) :=
  ⟨⟨"XOR", 0x8003, 0xF00F⟩, by decide, rfl, by simp only [OpcodeRow.covers, encode, fxyn_low]; decide⟩

theorem addReg (x y : Reg) : Statement (.addReg x y) :=
  ⟨⟨"ADD_REG", 0x8004, 0xF00F⟩, by decide, rfl, by simp only [OpcodeRow.covers, encode, fxyn_low]; decide⟩

theorem sub (x y : Reg) : Statement (.sub x y) :=
  ⟨⟨"SUB", 0x8005, 0xF00F⟩, by decide, rfl, by simp only [OpcodeRow.covers, encode, fxyn_low]; decide⟩

theorem shr (x y : Reg) : Statement (.shr x y) :=
  ⟨⟨"SHR", 0x8006, 0xF00F⟩, by decide, rfl, by simp only [OpcodeRow.covers, encode, fxyn_low]; decide⟩

theorem subn (x y : Reg) : Statement (.subn x y) :=
  ⟨⟨"SUBN", 0x8007, 0xF00F⟩, by decide, rfl, by simp only [OpcodeRow.covers, encode, fxyn_low]; decide⟩

theorem shl (x y : Reg) : Statement (.shl x y) :=
  ⟨⟨"SHL", 0x800E, 0xF00F⟩, by decide, rfl, by simp only [OpcodeRow.covers, encode, fxyn_low]; decide⟩

theorem sneReg (x y : Reg) : Statement (.sneReg x y) :=
  ⟨⟨"SNE_REG", 0x9000, 0xF00F⟩, by decide, rfl, by simp only [OpcodeRow.covers, encode, fxyn_low]; decide⟩

theorem ldI (nnn : Addr12) : Statement (.ldI nnn) :=
  ⟨⟨"LD_I", 0xA000, 0xF000⟩, by decide, rfl, by simp only [OpcodeRow.covers, encode, fnnn_top]; decide⟩

theorem jpV0 (nnn : Addr12) : Statement (.jpV0 nnn) :=
  ⟨⟨"JP_V0", 0xB000, 0xF000⟩, by decide, rfl, by simp only [OpcodeRow.covers, encode, fnnn_top]; decide⟩

theorem rnd (x : Reg) (nn : Byte) : Statement (.rnd x nn) :=
  ⟨⟨"RND", 0xC000, 0xF000⟩, by decide, rfl, by simp only [OpcodeRow.covers, encode, fxnn_top]; decide⟩

theorem drw (x y : Reg) (n : Height) : Statement (.drw x y n) :=
  ⟨⟨"DRW", 0xD000, 0xF000⟩, by decide, rfl, by simp only [OpcodeRow.covers, encode, fxyn_top]; decide⟩

theorem skp (x : Reg) : Statement (.skp x) :=
  ⟨⟨"SKP", 0xE09E, 0xF0FF⟩, by decide, rfl, by simp only [OpcodeRow.covers, encode, fxnn_low]; decide⟩

theorem sknp (x : Reg) : Statement (.sknp x) :=
  ⟨⟨"SKNP", 0xE0A1, 0xF0FF⟩, by decide, rfl, by simp only [OpcodeRow.covers, encode, fxnn_low]; decide⟩

theorem ldVDt (x : Reg) : Statement (.ldVDt x) :=
  ⟨⟨"LD_V_DT", 0xF007, 0xF0FF⟩, by decide, rfl, by simp only [OpcodeRow.covers, encode, fxnn_low]; decide⟩

theorem ldVK (x : Reg) : Statement (.ldVK x) :=
  ⟨⟨"LD_V_K", 0xF00A, 0xF0FF⟩, by decide, rfl, by simp only [OpcodeRow.covers, encode, fxnn_low]; decide⟩

theorem ldDtV (x : Reg) : Statement (.ldDtV x) :=
  ⟨⟨"LD_DT_V", 0xF015, 0xF0FF⟩, by decide, rfl, by simp only [OpcodeRow.covers, encode, fxnn_low]; decide⟩

theorem ldStV (x : Reg) : Statement (.ldStV x) :=
  ⟨⟨"LD_ST_V", 0xF018, 0xF0FF⟩, by decide, rfl, by simp only [OpcodeRow.covers, encode, fxnn_low]; decide⟩

theorem ldIV (x : Reg) : Statement (.ldIV x) :=
  ⟨⟨"LD_I_V", 0xF01E, 0xF0FF⟩, by decide, rfl, by simp only [OpcodeRow.covers, encode, fxnn_low]; decide⟩

theorem ldF (x : Reg) : Statement (.ldF x) :=
  ⟨⟨"LD_F", 0xF029, 0xF0FF⟩, by decide, rfl, by simp only [OpcodeRow.covers, encode, fxnn_low]; decide⟩

theorem ldB (x : Reg) : Statement (.ldB x) :=
  ⟨⟨"LD_B", 0xF033, 0xF0FF⟩, by decide, rfl, by simp only [OpcodeRow.covers, encode, fxnn_low]; decide⟩

theorem ldMemV (x : Reg) : Statement (.ldMemV x) :=
  ⟨⟨"LD_MEM_V", 0xF055, 0xF0FF⟩, by decide, rfl, by simp only [OpcodeRow.covers, encode, fxnn_low]; decide⟩

theorem ldVMem (x : Reg) : Statement (.ldVMem x) :=
  ⟨⟨"LD_V_MEM", 0xF065, 0xF0FF⟩, by decide, rfl, by simp only [OpcodeRow.covers, encode, fxnn_low]; decide⟩

end Sys2Proof.Laws.EncodesItsRow
end

