-- ==== Sys2Proof/Tests/Slice0.lean ====
section
/-! SUPPORT. The tests: words that the checks refuse, decodings written out from the spec's encodings, single steps with the
results of 95_test_vectors, and one witness for each hypothesis of the obligations. Expected values come from spec/. -/

namespace Sys2Proof.Tests

open Sys2Proof Sys2Proof.Machine

/-! ## Helpers -/

/-- The boot state of 70_reset R153 without the font, with the word w at 0x200 (95_test_vectors, conventions). -/
def start (w : Word) : State :=
  { State.reset with pc := 0x200, mem := Memory.writeBytes [] 0x200 [w.extractLsb' 8 8, w.extractLsb' 0 8] }

/-- The state with bytes written from an address on. -/
def poke (a : Nat) (bytes : List Byte) (s : State) : State := s.setMem (s.mem.writeBytes a bytes)

/-- The state with some registers set. -/
def regs (l : List (Reg × Byte)) (s : State) : State := l.foldl (fun s p => s.setV p.1 p.2) s

/-- The state with some pixels flipped. -/
def pixels (l : List (Fin 32 × Fin 64)) (s : State) : State := s.setDisp (l.foldl (fun d p => d.flip p.1 p.2) s.disp)

/-- The state with other parameters. -/
def withParams (f : Params → Params) (s : State) : State := { s with params := f s.params }

/-- The step answers a next state with the property. -/
def nextHas (r : Result) (p : State → Bool) : Bool :=
  match r with
  | .next t => p t
  | .fault _ => false
  | .refused _ => false

/-- The record of a fault at 0x200. -/
def haltedAt200 (f : EngineFault) (w : Word) : Mode := .halted ⟨f, 0x200, some w⟩

/-- The first pixels are true and the second ones false. -/
def shows (t : State) (on off : List (Fin 32 × Fin 64)) : Bool :=
  on.all (fun p => t.disp.pixel p.1 p.2) && off.all (fun p => !t.disp.pixel p.1 p.2)

/-! ## Ill-formed words (30_encoding R73; 95_test_vectors L2.1) -/

/-- family 0, word 0x0000. -/
theorem test_refuses_0000 : wellFormed0 0x0000 = false ∧ wellFormed 0x0000 = false ∧ decodeWord 0x0000 = none := by decide

/-- family 0, other nnn. -/
theorem test_refuses_0123 : wellFormed0 0x0123 = false ∧ wellFormed 0x0123 = false ∧ decodeWord 0x0123 = none := by decide

/-- family 0, near miss. -/
theorem test_refuses_00E1 : wellFormed0 0x00E1 = false ∧ wellFormed 0x00E1 = false ∧ decodeWord 0x00E1 = none := by decide

/-- 5xy0 with n not 0. -/
theorem test_refuses_5121 : wellFormed5 0x5121 = false ∧ wellFormed 0x5121 = false ∧ decodeWord 0x5121 = none := by decide

/-- 8xy8. -/
theorem test_refuses_8128 : wellFormed8 0x8128 = false ∧ wellFormed 0x8128 = false ∧ decodeWord 0x8128 = none := by decide

/-- 8xyF. -/
theorem test_refuses_812F : wellFormed8 0x812F = false ∧ wellFormed 0x812F = false ∧ decodeWord 0x812F = none := by decide

/-- 9xy0 with n not 0. -/
theorem test_refuses_9121 : wellFormed9 0x9121 = false ∧ wellFormed 0x9121 = false ∧ decodeWord 0x9121 = none := by decide

/-- Ex9F. -/
theorem test_refuses_E19F : wellFormedE 0xE19F = false ∧ wellFormed 0xE19F = false ∧ decodeWord 0xE19F = none := by decide

/-- FxFF. -/
theorem test_refuses_F0FF : wellFormedF 0xF0FF = false ∧ wellFormed 0xF0FF = false ∧ decodeWord 0xF0FF = none := by decide

/-- Two bytes with no instruction and too few bytes are refused by name. -/
theorem test_decode_errors :
    decode [0x51, 0x21] = .error (.invalidInstruction 0x5121) ∧ decode [0x51] = .error .truncated := by decide

/-! ## Decoding: words written out bit by bit from 30_encoding R71, one for each constructor -/

theorem test_decode_cls : decodeWord 0b0000_0000_1110_0000 = some .cls := by decide
theorem test_decode_ret : decodeWord 0b0000_0000_1110_1110 = some .ret := by decide
theorem test_decode_jp : decodeWord 0b0001_1010_1011_1100 = some (.jp 0xABC) := by decide
theorem test_decode_call : decodeWord 0b0010_0011_0000_0001 = some (.call 0x301) := by decide
theorem test_decode_seImm : decodeWord 0b0011_0011_0001_0010 = some (.seImm 3 0x12) := by decide
theorem test_decode_sneImm : decodeWord 0b0100_0100_1111_0001 = some (.sneImm 4 0xF1) := by decide
theorem test_decode_seReg : decodeWord 0b0101_0001_0010_0000 = some (.seReg 1 2) := by decide
theorem test_decode_ldImm : decodeWord 0b0110_1010_1111_1110 = some (.ldImm 10 0xFE) := by decide
theorem test_decode_addImm : decodeWord 0b0111_1111_0000_0001 = some (.addImm 15 0x01) := by decide
theorem test_decode_ldReg : decodeWord 0b1000_1010_1011_0000 = some (.ldReg 10 11) := by decide
theorem test_decode_or : decodeWord 0b1000_0001_0010_0001 = some (.or 1 2) := by decide
theorem test_decode_and : decodeWord 0b1000_0001_0010_0010 = some (.and 1 2) := by decide
theorem test_decode_xor : decodeWord 0b1000_0001_0010_0011 = some (.xor 1 2) := by decide
theorem test_decode_addReg : decodeWord 0b1000_0001_0010_0100 = some (.addReg 1 2) := by decide
theorem test_decode_sub : decodeWord 0b1000_0001_0010_0101 = some (.sub 1 2) := by decide
theorem test_decode_shr : decodeWord 0b1000_0001_0010_0110 = some (.shr 1 2) := by decide
theorem test_decode_subn : decodeWord 0b1000_0001_0010_0111 = some (.subn 1 2) := by decide
theorem test_decode_shl : decodeWord 0b1000_0001_0010_1110 = some (.shl 1 2) := by decide
theorem test_decode_sneReg : decodeWord 0b1001_0001_0010_0000 = some (.sneReg 1 2) := by decide
theorem test_decode_ldI : decodeWord 0b1010_0011_0000_0001 = some (.ldI 0x301) := by decide
theorem test_decode_jpV0 : decodeWord 0b1011_0011_0001_0010 = some (.jpV0 0x312) := by decide
theorem test_decode_rnd : decodeWord 0b1100_0011_0000_1111 = some (.rnd 3 0x0F) := by decide
theorem test_decode_drw : decodeWord 0b1101_0001_0010_0111 = some (.drw 1 2 7) := by decide
theorem test_decode_skp : decodeWord 0b1110_0001_1001_1110 = some (.skp 1) := by decide
theorem test_decode_sknp : decodeWord 0b1110_0001_1010_0001 = some (.sknp 1) := by decide
theorem test_decode_ldVDt : decodeWord 0b1111_0011_0000_0111 = some (.ldVDt 3) := by decide
theorem test_decode_ldVK : decodeWord 0b1111_0010_0000_1010 = some (.ldVK 2) := by decide
theorem test_decode_ldDtV : decodeWord 0b1111_0001_0001_0101 = some (.ldDtV 1) := by decide
theorem test_decode_ldStV : decodeWord 0b1111_0010_0001_1000 = some (.ldStV 2) := by decide
theorem test_decode_ldIV : decodeWord 0b1111_0100_0001_1110 = some (.ldIV 4) := by decide
theorem test_decode_ldF : decodeWord 0b1111_0000_0010_1001 = some (.ldF 0) := by decide
theorem test_decode_ldB : decodeWord 0b1111_1010_0011_0011 = some (.ldB 10) := by decide
theorem test_decode_ldMemV : decodeWord 0b1111_0010_0101_0101 = some (.ldMemV 2) := by decide
theorem test_decode_ldVMem : decodeWord 0b1111_0001_0110_0101 = some (.ldVMem 1) := by decide

/-- The numbering of the opcode table: a byte pair is the big-endian word, and more bits are refused. -/
theorem test_decodeTableWord : decodeTableWord 16 0x8AB4 = some (.addReg 10 11) ∧ decodeTableWord 16 0x8128 = none := by
  decide

/-- The placed instruction is the one that the first step after reset runs. -/
theorem test_withFetchWord : nextHas (step (State.reset.withFetchWord 16 0x6005)) (fun t => t.getV 0 == 5) = true := by
  decide

/-! ## One step for each instruction (95_test_vectors L2) -/

/-- L2.2, CLS on two set pixels. -/
theorem test_cls : nextHas (step (pixels [(0, 0), (31, 63)] (start 0x00E0))) (fun t =>
    shows t [] [(0, 0), (31, 63)] && t.pc == 0x202) = true := by decide

/-- L2.2, RET takes the last entry. -/
theorem test_ret : nextHas (step ((fun s => s.setStack [0x302, 0x40A]) (start 0x00EE))) (fun t =>
    t.stack == [0x302] && t.pc == 0x40A) = true := by decide

/-- L2.2, RET on an empty stack. -/
theorem test_ret_underflow : nextHas (step (start 0x00EE)) (fun t =>
    t.mode == haltedAt200 .stackUnderflow 0x00EE && t.pc == 0x200) = true := by decide

/-- L2.2, JP 0xABC. -/
theorem test_jp : nextHas (step (start 0x1ABC)) (fun t =>
    t.pc == 0xABC) = true := by decide

/-- L2.2, CALL with 15 entries. -/
theorem test_call : nextHas (step ((fun s => s.setStack (List.replicate 15 0x202)) (start 0x2300))) (fun t =>
    t.stack == List.replicate 16 0x202 && t.pc == 0x300) = true := by decide

/-- L2.2, CALL with 16 entries. -/
theorem test_call_overflow : nextHas (step ((fun s => s.setStack (List.replicate 16 0x202)) (start 0x2300))) (fun t =>
    t.mode == haltedAt200 .stackOverflow 0x2300 && t.stack == List.replicate 16 0x202) = true := by decide

/-- L2.2, JP V0 to the largest target. -/
theorem test_jpV0 : nextHas (step (regs [(0, 0xFF)] (start 0xBFFF))) (fun t =>
    t.pc == 0x10FE) = true := by decide

/-- L2.2, JP V0 under QUIRK_JUMP_USES_VX. -/
theorem test_jpV0_quirk : nextHas (step (withParams (fun p => { p with jumpUsesVx := true }) (regs [(0, 0x01), (3, 0x04)] (start 0xB312)))) (fun t =>
    t.pc == 0x316) = true := by decide

/-- L2.3, SE V3, 0x12 on a match. -/
theorem test_seImm : nextHas (step (regs [(3, 0x12)] (start 0x3312))) (fun t =>
    t.pc == 0x204) = true := by decide

/-- L2.3, SE V3, 0x12 on no match. -/
theorem test_seImm_differs : nextHas (step (regs [(3, 0x13)] (start 0x3312))) (fun t =>
    t.pc == 0x202) = true := by decide

/-- L2.3, SNE V3, 0x12 on a match. -/
theorem test_sneImm : nextHas (step (regs [(3, 0x12)] (start 0x4312))) (fun t =>
    t.pc == 0x202) = true := by decide

/-- L2.3, SNE V3, 0x12 on no match. -/
theorem test_sneImm_differs : nextHas (step (regs [(3, 0x13)] (start 0x4312))) (fun t =>
    t.pc == 0x204) = true := by decide

/-- L2.3, SE V1, V2 on equal values. -/
theorem test_seReg : nextHas (step (regs [(1, 0x07), (2, 0x07)] (start 0x5120))) (fun t =>
    t.pc == 0x204) = true := by decide

/-- L2.3, SE V1, V2 on different values. -/
theorem test_seReg_differs : nextHas (step (regs [(1, 0x07), (2, 0x08)] (start 0x5120))) (fun t =>
    t.pc == 0x202) = true := by decide

/-- L2.3, SNE V1, V2 on different values. -/
theorem test_sneReg : nextHas (step (regs [(1, 0x07), (2, 0x08)] (start 0x9120))) (fun t =>
    t.pc == 0x204) = true := by decide

/-- L2.3, SNE V1, V1. -/
theorem test_sneReg_same : nextHas (step (start 0x9110)) (fun t =>
    t.pc == 0x202) = true := by decide

/-- L2.3, LD VF, 0x42. -/
theorem test_ldImm : nextHas (step (regs [(15, 0x01)] (start 0x6F42))) (fun t =>
    t.getV 15 == 0x42 && t.pc == 0x202) = true := by decide

/-- L2.3, ADD VA, 0xFF wraps and keeps VF. -/
theorem test_addImm : nextHas (step (regs [(10, 0x03), (15, 0x01)] (start 0x7AFF))) (fun t =>
    t.getV 10 == 0x02 && t.getV 15 == 0x01 && t.pc == 0x202) = true := by decide

/-- L2.3, ADD VF, 0x01. -/
theorem test_addImm_vf : nextHas (step (regs [(15, 0xFF)] (start 0x7F01))) (fun t =>
    t.getV 15 == 0x00) = true := by decide

/-- L2.4, LD VA, VB. -/
theorem test_ldReg : nextHas (step (regs [(11, 0x42)] (start 0x8AB0))) (fun t =>
    t.getV 10 == 0x42 && t.getV 11 == 0x42) = true := by decide

/-- L2.4, OR keeps VF. -/
theorem test_or : nextHas (step (regs [(1, 0xF0), (2, 0x0F), (15, 0x07)] (start 0x8121))) (fun t =>
    t.getV 1 == 0xFF && t.getV 15 == 0x07) = true := by decide

/-- L2.4, AND keeps VF. -/
theorem test_and : nextHas (step (regs [(1, 0xF0), (2, 0x3C), (15, 0x09)] (start 0x8122))) (fun t =>
    t.getV 1 == 0x30 && t.getV 15 == 0x09) = true := by decide

/-- L2.4, XOR V1, V1. -/
theorem test_xor : nextHas (step (regs [(1, 0x5A)] (start 0x8113))) (fun t =>
    t.getV 1 == 0x00) = true := by decide

/-- L2.4, ADD V1, VF reads VF before it is written. -/
theorem test_addReg : nextHas (step (regs [(1, 0x10), (15, 0x01)] (start 0x81F4))) (fun t =>
    t.getV 1 == 0x11 && t.getV 15 == 0x00) = true := by decide

/-- L2.4, ADD VF, V1 under flag_first. -/
theorem test_addReg_flag_first : nextHas (step (withParams (fun p => { p with flagOrder := .flagFirst }) (regs [(15, 0xFF), (1, 0x01)] (start 0x8F14)))) (fun t =>
    t.getV 15 == 0x00) = true := by decide

/-- L2.4, SUB with a borrow. -/
theorem test_sub : nextHas (step (regs [(1, 0x00), (2, 0x01)] (start 0x8125))) (fun t =>
    t.getV 1 == 0xFF && t.getV 15 == 0x00) = true := by decide

/-- L2.4, SUB VF, V1 under flag_last. -/
theorem test_sub_vf : nextHas (step (regs [(15, 0x09), (1, 0x03)] (start 0x8F15))) (fun t =>
    t.getV 15 == 0x01) = true := by decide

/-- L2.4, SUBN without a borrow. -/
theorem test_subn : nextHas (step (regs [(1, 0x03), (2, 0x05)] (start 0x8127))) (fun t =>
    t.getV 1 == 0x02 && t.getV 15 == 0x01) = true := by decide

/-- L2.4, SUBN with a borrow. -/
theorem test_subn_borrow : nextHas (step (regs [(1, 0x01), (2, 0x00)] (start 0x8127))) (fun t =>
    t.getV 1 == 0xFF && t.getV 15 == 0x00) = true := by decide

/-- L2.4, SHR ignores V2. -/
theorem test_shr : nextHas (step (regs [(1, 0x05), (2, 0xFF)] (start 0x8126))) (fun t =>
    t.getV 1 == 0x02 && t.getV 15 == 0x01) = true := by decide

/-- L2.4, SHR under QUIRK_SHIFT_USES_VY. -/
theorem test_shr_quirk : nextHas (step (withParams (fun p => { p with shiftUsesVy := true }) (regs [(1, 0x05), (2, 0xFF)] (start 0x8126)))) (fun t =>
    t.getV 1 == 0x7F && t.getV 2 == 0xFF && t.getV 15 == 0x01) = true := by decide

/-- L2.4, SHL of 0x7F. -/
theorem test_shl : nextHas (step (regs [(1, 0x7F), (15, 0x01)] (start 0x810E))) (fun t =>
    t.getV 1 == 0xFE && t.getV 15 == 0x00) = true := by decide

/-- L2.4, SHL VF under flag_last. -/
theorem test_shl_vf : nextHas (step (regs [(15, 0x80)] (start 0x8F0E))) (fun t =>
    t.getV 15 == 0x01) = true := by decide

/-- L2.5, LD I, 0xFFF. -/
theorem test_ldI : nextHas (step (start 0xAFFF)) (fun t =>
    t.ir == 0xFFF && t.pc == 0x202) = true := by decide

/-- L2.5, RND V3, 0x0F: the result is the mask of the free byte, whatever it is. -/
theorem test_rnd : ∃ t, step (start 0xC30F) = .next t ∧ t.getV 3 = 0x0F &&& Config.randomByte 0 ∧ t.pc = 0x202 ∧
    t.draws = 1 := ⟨_, rfl, rfl, rfl, rfl⟩

/-- L2.5, RND V3, 0x00: zero for any draw. -/
theorem test_rnd_zero : ∃ t, step (start 0xC300) = .next t ∧ t.getV 3 = 0 := ⟨_, rfl, BitVec.zero_and⟩

/-- L2.5, DRW at column 62, row 31. -/
theorem test_drw_clips : nextHas (step (poke 0x300 [0xFF] ((State.setIr · 0x300) (regs [(0, 62), (1, 31)] (start 0xD011))))) (fun t =>
    shows t [(31, 62), (31, 63)] [(31, 61), (31, 0), (0, 62)] && t.getV 15 == 0 && t.pc == 0x202) = true := by decide

/-- L2.5, DRW of 0xC0 over pixel (0, 1). -/
theorem test_drw_collides : nextHas (step (pixels [(0, 1)] (poke 0x300 [0xC0] ((State.setIr · 0x300) (start 0xD011))))) (fun t =>
    shows t [(0, 0)] [(0, 1), (0, 2)] && t.getV 15 == 1) = true := by decide

/-- L2.6, SKP with another key consumes it. -/
theorem test_skp : nextHas (step ((fun s => s.setKey (some 4)) (regs [(1, 0x05)] (start 0xE19E)))) (fun t =>
    t.pc == 0x202 && t.key == none) = true := by decide

/-- L2.6, SKP under on_match keeps another key. -/
theorem test_skp_on_match : nextHas (step (withParams (fun p => { p with keySkipConsume := .onMatch }) ((fun s => s.setKey (some 4)) (regs [(1, 0x05)] (start 0xE19E))))) (fun t =>
    t.pc == 0x202 && t.key == some 4) = true := by decide

/-- L2.6, SKNP with no key. -/
theorem test_sknp : nextHas (step (start 0xE1A1)) (fun t =>
    t.pc == 0x204 && t.key == none) = true := by decide

/-- L2.6, SKNP under never. -/
theorem test_sknp_never : nextHas (step (withParams (fun p => { p with keySkipConsume := .never }) ((fun s => s.setKey (some 4)) (regs [(1, 0x05)] (start 0xE1A1))))) (fun t =>
    t.pc == 0x204 && t.key == some 4) = true := by decide

/-- L2.7, LD V3, DT. -/
theorem test_ldVDt : nextHas (step ((fun s => s.setDt 0x2A) (start 0xF307))) (fun t =>
    t.getV 3 == 0x2A && t.dt == 0x2A && t.pc == 0x202) = true := by decide

/-- L2.6, LD V2, K with no key. -/
theorem test_ldVK_waits : nextHas (step (start 0xF20A)) (fun t =>
    t.pc == 0x200 && t.getV 2 == 0) = true := by decide

/-- L2.6, LD V2, K with key F. -/
theorem test_ldVK_takes : nextHas (step ((fun s => s.setKey (some 0xF)) (start 0xF20A))) (fun t =>
    t.getV 2 == 0x0F && t.key == none && t.pc == 0x202) = true := by decide

/-- L2.7, LD DT, V1. -/
theorem test_ldDtV : nextHas (step (regs [(1, 0xFF)] (start 0xF115))) (fun t =>
    t.dt == 0xFF && t.pc == 0x202) = true := by decide

/-- L2.7, LD ST, V2. -/
theorem test_ldStV : nextHas (step (regs [(2, 0x07)] (start 0xF218))) (fun t =>
    t.st == 0x07 && t.dt == 0 && t.pc == 0x202) = true := by decide

/-- L2.8, LD I, V4 sets. -/
theorem test_ldIV : nextHas (step ((State.setIr · 0x300) (regs [(4, 0x12)] (start 0xF41E)))) (fun t =>
    t.ir == 0x012 && t.pc == 0x202) = true := by decide

/-- L2.8, LD I, V4 under QUIRK_FX1E_ADDS wraps. -/
theorem test_ldIV_quirk : nextHas (step (withParams (fun p => { p with fx1eAdds := true }) ((State.setIr · 0xFFF0) (regs [(4, 0x12), (15, 0x01)] (start 0xF41E))))) (fun t =>
    t.ir == 0x0002 && t.getV 15 == 0x01) = true := by decide

/-- L2.8, LD F, V0 with stride 5. -/
theorem test_ldF : nextHas (step (withParams (fun p => { p with glyphStride := .five }) (regs [(0, 0x0F)] (start 0xF029)))) (fun t =>
    t.ir == 0x09B && t.pc == 0x202) = true := by decide

/-- L2.8, LD F, V0 with V0 = 0x10 is refused. -/
theorem test_ldF_refused : step (regs [(0, 0x10)] (start 0xF029)) = .refused (.unspecifiedGlyph 0x10) := rfl

/-- L2.8, LD B of 123 at the last legal position. -/
theorem test_ldB : nextHas (step ((State.setIr · 0xFFD) (regs [(0, 123)] (start 0xF033)))) (fun t =>
    t.mem.readBytes 0xFFD 3 == [1, 2, 3] && t.ir == 0xFFD) = true := by decide

/-- L2.8, LD B one address too high. -/
theorem test_ldB_fault : nextHas (step ((State.setIr · 0xFFE) (regs [(0, 123)] (start 0xF033)))) (fun t =>
    t.mode == haltedAt200 (.outOfBounds 0x1000) 0xF033 && t.mem.read 0xFFE == 0) = true := by decide

/-- L2.8, LD [I], V2. -/
theorem test_ldMemV : nextHas (step ((State.setIr · 0x300) (regs [(0, 0x11), (1, 0x22), (2, 0x33), (3, 0x44)] (start 0xF255)))) (fun t =>
    t.mem.readBytes 0x300 4 == [0x11, 0x22, 0x33, 0] && t.ir == 0x300) = true := by decide

/-- L2.8, LD [I], VF out of range writes nothing. -/
theorem test_ldMemV_fault : nextHas (step ((State.setIr · 0xFF1) (regs [(0, 0x11)] (start 0xFF55)))) (fun t =>
    t.mode == haltedAt200 (.outOfBounds 0x1000) 0xFF55 && t.mem.read 0xFF1 == 0) = true := by decide

/-- L2.8, LD V0, [I] of the last byte. -/
theorem test_ldVMem : nextHas (step (poke 0xFFF [0xAB] ((State.setIr · 0xFFF) (start 0xF065)))) (fun t =>
    t.getV 0 == 0xAB && t.ir == 0xFFF) = true := by decide

/-- L2.8, LD V1, [I] out of range writes nothing. -/
theorem test_ldVMem_fault : nextHas (step (poke 0xFFF [0xAB] ((State.setIr · 0xFFF) (start 0xF165)))) (fun t =>
    t.mode == haltedAt200 (.outOfBounds 0x1000) 0xF165 && t.getV 0 == 0) = true := by decide

/-! ## Fetch, agents and loader (95_test_vectors L2.1, L2.7, L2.9) -/

/-- L2.1, the fetch straddling the end. -/
theorem test_fetch_straddles : nextHas (step (poke 0xFFF [0x60] { State.reset with pc := 0xFFF })) (fun t =>
    t.mode == .halted ⟨.outOfBounds 0x1000, 0xFFF, none⟩ && t.pc == 0xFFF) = true := by decide

/-- L2.1, an odd pc. -/
theorem test_fetch_odd : nextHas (step (poke 0x201 [0x60, 0x01] { State.reset with pc := 0x201 })) (fun t =>
    t.getV 0 == 0x01 && t.pc == 0x203) = true := by decide

/-- L2.1, word 0x0000. -/
theorem test_invalid_word : nextHas (step (start 0x0000)) (fun t =>
    t.mode == haltedAt200 (.invalidInstruction 0x0000) 0x0000 && t.pc == 0x200) = true := by decide

/-- 60_exceptions R122, the code and the info of each fault. -/
theorem test_fault_codes :
    [faultCode (.outOfBounds 0x1000), faultCode (.invalidInstruction 0), faultCode .stackOverflow,
      faultCode .stackUnderflow] = [1, 2, 3, 4] ∧ faultInfo (.outOfBounds 0x1000) = some 0x1000 ∧
      faultInfo (.invalidInstruction 0x5121) = some 0x5121 ∧ faultInfo .stackOverflow = none := by decide

/-- L2.7, one tick of DT = 0xFF, ST = 2, and one of DT = 1, ST = 0. -/
theorem test_tick :
    nextHas (actAll [.periodBoundary, .decSound, .decDelay] { State.reset with dt := 0xFF, st := 2 }) (fun t =>
      t.dt == 0xFE && t.st == 1 && t.timer == .waiting) = true ∧
    nextHas (actAll [.periodBoundary, .decDelay, .decSound] { State.reset with dt := 1 }) (fun t =>
      t.dt == 0 && t.st == 0 && t.timer == .waiting) = true := by decide

/-- 60_exceptions R139, the timer actor stops at a period boundary once EXIT is set. -/
theorem test_timer_stops : nextHas (actAll [.requestExit, .periodBoundary, .decDelay] { State.reset with dt := 5 })
    (fun t => t.timer == .stopped && t.dt == 5 && t.exit) = true := by decide

/-- 60_exceptions R144, the display read gives a copy of DISP. -/
theorem test_getDisplay : (getDisplay (pixels [(2, 3)] State.reset)).pixel 2 3 = true := by decide

/-- L2.9, a load of 3585 bytes at 0x200 fails with OutOfBounds(0x1001). -/
theorem test_load_too_long : load (List.replicate 3585 7) 0x200 true State.reset = .error (.outOfBounds 0x1001) := by
  unfold load
  rw [List.length_replicate]
  rfl

/-- L2.9, the load of nothing at 0x1000 succeeds. -/
theorem test_load_nothing : load [] 0x1000 false State.reset = .ok State.reset := by decide

/-! ## Witnesses: states and operands that meet the hypotheses of each obligation, at the ends of their ranges -/

/-- A fault record, for states in Halted. -/
def record : FaultRecord := ⟨.stackUnderflow, 0, some 0x00EE⟩

theorem witness_EncodeOfDecodeIsIdentity : decodeWord 0xFFFF = none ∧ decodeWord 0xFF65 = some (.ldVMem 15) := by decide

theorem witness_FetchReadsBigEndianOrFaults :
    ({ State.reset with pc := 4094 }).pc.toNat + 1 < 4096 ∧ 4096 ≤ ({ State.reset with pc := 4096 }).pc.toNat ∧
      ({ State.reset with pc := 4095 }).pc.toNat = 4095 := by decide

theorem witness_StepRunsDecodedInstruction :
    let s := poke 4094 [0x60, 0x01] { State.reset with pc := 4094 }
    s.mode = .running ∧ s.pc.toNat + 2 ≤ 4096 ∧ decode (s.mem.readBytes s.pc.toNat 2) = .ok (.ldImm 0 1, []) ∧
      s.schedule = [] ∧ (s.setSchedule [.runNextInstruction, .decDelay]).schedule = .runNextInstruction :: [.decDelay] :=
  ⟨rfl, by decide, by rfl, rfl, rfl⟩

theorem witness_ScheduledActionHappens :
    (State.reset.setSchedule [.periodBoundary, .decDelay]).schedule = .periodBoundary :: [.decDelay] ∧
      (State.reset.setSchedule [.decDelay]).schedule = .decDelay :: [] ∧
      (State.reset.setSchedule [.decSound]).schedule = .decSound :: [] ∧
      (State.reset.setSchedule [.setCurrentKey none]).schedule = .setCurrentKey none :: [] ∧
      (State.reset.setSchedule [.requestExit]).schedule = .requestExit :: [] ∧
      (State.reset.setSchedule [.getDisplay]).schedule = .getDisplay :: [] := by decide

theorem witness_InvalidInstructionHalts :
    (start 0xFF66).mode = .running ∧ fetch (start 0xFF66) = .ok 0xFF66 ∧ wellFormed 0xFF66 = false ∧
      fetch (start 0x8ABF) = .ok 0x8ABF ∧ (0x8ABF : Word).extractLsb' 12 4 = 0x8#4 ∧
      (0x8ABF : Word).extractLsb' 0 4 = 0xF#4 :=
  ⟨rfl, rfl, by decide, rfl, by decide, by decide⟩

theorem witness_FetchOutOfBoundsHalts :
    ({ State.reset with pc := 4095 }).mode = .running ∧ 4096 < ({ State.reset with pc := 4095 }).pc.toNat + 2 ∧
      4096 ≤ ({ State.reset with pc := 0x10FE }).pc.toNat := by decide

theorem witness_HaltedHasNoEngineStep :
    let s := State.reset.setMode (.halted record)
    s.mode = .halted record ∧ s.schedule = [] ∧
      (s.setSchedule [.runNextInstruction]).schedule = .runNextInstruction :: [] := by decide

/-- A Halted state in a phase of the timer actor, with one scheduled event. -/
def haltedIn (p : TimerPhase) (e : Event) : State :=
  { State.reset with mode := .halted record, timer := p, dt := 1, st := 1, schedule := [e] }

theorem witness_HaltedStateDoesNotChange :
    (haltedIn .bothDue .decDelay).mode = .halted record ∧
      step (haltedIn .bothDue .decDelay) =
        .next { haltedIn .bothDue .decDelay with dt := 0, timer := .soundDue, schedule := [] } ∧
      step (haltedIn .delayDue .decDelay) =
        .next { haltedIn .delayDue .decDelay with dt := 0, timer := .waiting, schedule := [] } ∧
      step (haltedIn .bothDue .decSound) =
        .next { haltedIn .bothDue .decSound with st := 0, timer := .delayDue, schedule := [] } ∧
      step (haltedIn .soundDue .decSound) =
        .next { haltedIn .soundDue .decSound with st := 0, timer := .waiting, schedule := [] } :=
  ⟨rfl, rfl, rfl, rfl, rfl⟩

/-- The clause of the phases without a decrement: waiting, where a boundary stops the actor, and stopped. -/
theorem witness_HaltedStateDoesNotChange_idle :
    (haltedIn .waiting .periodBoundary).timer = .waiting ∧
      step (haltedIn .waiting .periodBoundary) =
        .next { haltedIn .waiting .periodBoundary with timer := .stopped, schedule := [] } ∧
      (haltedIn .stopped .decDelay).timer = .stopped ∧
      step (haltedIn .stopped .decDelay) = .next { haltedIn .stopped .decDelay with schedule := [] } :=
  ⟨rfl, rfl, rfl, rfl⟩

theorem witness_RetPopsOrUnderflows :
    (State.reset.setStack [0x302, 0x40A]).stack = [0x302] ++ [0x40A] ∧ State.reset.stack = [] ∧
      (State.reset.setPc 4095).pc = 4095 ∧ (State.reset.setPc 4096).pc = 4096 := by decide

theorem witness_JpSetsPc :
    (0xFFF : Addr12).setWidth 16 = (State.reset.setPc 0xFFF).pc ∧ (0x1ABC : Word).extractLsb' 12 4 = 0x1#4 := by decide

/-- 17 calls to 0 from the reset state: the states between them. -/
def calls : Nat → State
  | 0 => State.reset
  | k + 1 => { State.reset with
      stack := List.replicate (min (k + 1) 16) 2
      mode := if k < 16 then .running else .halted ⟨.stackOverflow, 0, some 0x2000⟩ }

theorem witness_CallPushesOrOverflows :
    (State.reset.setStack (List.replicate 15 2)).stack.length < 16 ∧
      (State.reset.setStack (List.replicate 16 2)).stack.length = 16 ∧ (0x2ABC : Word).extractLsb' 12 4 = 0x2#4 := by
  decide

theorem witness_CallPushesOrOverflows_chain :
    (calls 0).stack = [] ∧ ∀ k ≤ 16, exec (.call 0) (calls k) = .next (calls (k + 1)) :=
  ⟨rfl, fun k hk => by interval_cases k <;> rfl⟩

theorem witness_JpV0AddsOffset :
    State.reset.params.jumpUsesVx = false ∧
      (withParams (fun p => { p with jumpUsesVx := true }) State.reset).params.jumpUsesVx = true := by decide

theorem witness_CallThenRetResumesAfterCall :
    let s := start 0x2FFF
    let t := { s with stack := [0x202], pc := 0xFFF }
    s.mode = .running ∧ exec (.call 0xFFF) s = .next t ∧ t.mode = .running ∧
      (State.reset.setStack [0x202]).stack = t.stack := ⟨rfl, rfl, rfl, rfl⟩

theorem witness_SkipOnImmediate :
    (0x3FFF : Word).extractLsb' 12 4 = 0x3#4 ∧ (0x4000 : Word).extractLsb' 12 4 = 0x4#4 := by decide

theorem witness_SkipOnRegisters :
    (0x5121 : Word).extractLsb' 12 4 = 0x5#4 ∧ (0x5121 : Word).extractLsb' 0 4 ≠ 0#4 ∧
      (0x912F : Word).extractLsb' 12 4 = 0x9#4 ∧ (0x912F : Word).extractLsb' 0 4 ≠ 0#4 := by decide

theorem witness_LoadAndAddImmediate :
    (0x6FFF : Word).extractLsb' 12 4 = 0x6#4 ∧ (0x7000 : Word).extractLsb' 12 4 = 0x7#4 := by decide

theorem witness_CopyAndBitwise :
    (0x8FF0 : Word).extractLsb' 12 4 = 0x8#4 ∧ (0x8FF0 : Word).extractLsb' 0 4 = 0#4 ∧
      (0x8FF1 : Word).extractLsb' 0 4 = 1#4 ∧ (0x8FF2 : Word).extractLsb' 0 4 = 2#4 ∧
      (0x8FF3 : Word).extractLsb' 0 4 = 3#4 := by decide

/-- The hypotheses of AddRegWithCarry and SubtractsWithNoBorrow. -/
theorem witness_AddRegWithCarry_SubtractsWithNoBorrow :
    State.reset.params.flagOrder = .flagLast ∧
      (withParams (fun p => { p with flagOrder := .flagFirst }) State.reset).params.flagOrder = .flagFirst := by decide

theorem witness_ShiftsByOne :
    (withParams (fun p => { p with shiftUsesVy := true }) State.reset).params.flagOrder = .flagLast ∧
      (withParams (fun p => { p with flagOrder := .flagFirst, shiftUsesVy := true }) State.reset).params.flagOrder =
        .flagFirst := by decide

theorem witness_LdISetsIndex :
    (State.reset.setIr 0xFFF).ir = (0xFFF : Addr12).setWidth 16 ∧ (0xAFFF : Word).extractLsb' 12 4 = 0xA#4 := by decide

theorem witness_RndMasksAFreeByte : (0x0F : Byte).getLsbD 7 = false ∧ (0x0F : Byte).getLsbD 4 = false := by decide

theorem witness_DrwTogglesPixelsAndReportsCollision :
    (0 : Height).val = 0 ∧ (State.reset.setIr 4081).ir.toNat + (15 : Height).val ≤ 4096 ∧
      (State.reset.setIr 4095).ir.toNat + (1 : Height).val ≤ 4096 := by decide

/-- One row of one pixel at the last byte of memory. -/
def dot : State := poke 0xFFF [0x80] (State.reset.setIr 0xFFF)

theorem witness_DrawingTwiceRestoresDisplay :
    let t := { dot with disp := Display.blank.flip 0 0, pc := 2 }
    let v := (t.setPc 4).setV 15 1
    dot.ir.toNat + (1 : Height).val = 4096 ∧ exec (.drw 0 1 1) dot = .next t ∧
      t.ir = dot.ir ∧ t.mem = dot.mem ∧ t.v = dot.v ∧ nextHas (exec (.drw 0 1 1) t) (fun u =>
        u.pc == v.pc && u.getV 15 == 1 && !u.disp.pixel 0 0) = true :=
  ⟨by decide, rfl, rfl, rfl, rfl, by decide⟩

theorem witness_MemoryInstructionsFaultOutOfRange :
    (1 : Height).val ≠ 0 ∧ 4096 < (State.reset.setIr 4096).ir.toNat + (1 : Height).val ∧
      4096 < (State.reset.setIr 4082).ir.toNat + (15 : Height).val ∧ 4096 ≤ (State.reset.setIr 4094).ir.toNat + 2 ∧
      4096 ≤ (State.reset.setIr 4096).ir.toNat + (0 : Reg).val ∧
      4096 ≤ (State.reset.setIr 4081).ir.toNat + (15 : Reg).val := by decide

theorem witness_KeySkipsCompareAndConsume :
    State.reset.params.keySkipConsume = .always ∧
      (withParams (fun p => { p with keySkipConsume := .onMatch }) State.reset).params.keySkipConsume = .onMatch ∧
      (withParams (fun p => { p with keySkipConsume := .never }) State.reset).params.keySkipConsume = .never ∧
      ∃ k₀ : Key, (State.reset.setKey (some 0)).key = some k₀ ∧
        k₀.val = ((State.reset.setKey (some 0)).getV 1).toNat :=
  ⟨rfl, rfl, rfl, 0, rfl, by decide⟩

theorem witness_WaitForKeyRewindsOrTakes :
    State.reset.key = none ∧ (State.reset.setKey (some 15)).key = some 15 ∧
      (State.reset.setKey (some 0)).key = some 0 := by decide

/-- Each phase in which an Fx15 or an Fx18 can fall, with no termination signal: V0 = 0 and V1 = 255. -/
theorem witness_TimerInstructions :
    ∀ p ∈ [TimerPhase.waiting, .bothDue, .delayDue, .soundDue, .stopped],
      let s := regs [(1, 255)] (State.reset.setTimer p)
      exec (.ldDtV 1) s = .next { s with dt := 255, pc := 2 } ∧ exec (.ldDtV 0) s = .next { s with dt := 0, pc := 2 } ∧
        exec (.ldStV 1) s = .next { s with st := 255, pc := 2 } ∧ ({ s with dt := 255, pc := 2 }).timer = p ∧
        terminated { s with dt := 255, pc := 2 } = false ∧ terminated { s with st := 255, pc := 2 } = false :=
  fun _ _ => ⟨rfl, rfl, rfl, rfl, rfl, rfl⟩

theorem witness_TimerInstructions_words :
    (0xFF07 : Word).extractLsb' 12 4 = 0xF#4 ∧ (0xFF07 : Word).extractLsb' 0 8 = 0x07#8 ∧
      (0xF015 : Word).extractLsb' 0 8 = 0x15#8 ∧ (0xF018 : Word).extractLsb' 0 8 = 0x18#8 := by decide

theorem witness_LdIVSetsIndex :
    State.reset.params.fx1eAdds = false ∧
      (withParams (fun p => { p with fx1eAdds := true }) State.reset).params.fx1eAdds = true := by decide

theorem witness_LdFPointsAtGlyphOrIsRefused :
    let s := withParams (fun p => { p with fontBase := 4016, glyphStride := .five }) (regs [(0, 0xF), (1, 0x10)] State.reset)
    (s.getV 0).toNat ≤ 0xF ∧ s.params.fontBase + 80 ≤ 4096 ∧ s.params.glyphStride = .five ∧ 0xF < (s.getV 1).toNat ∧
      State.reset.params.glyphStride = .one := by decide

theorem witness_LdBStoresDecimalDigits : (State.reset.setIr 4093).ir.toNat + 2 < 4096 := by decide

/-- The hypothesis of LdMemVStoresRegisters and LdVMemLoadsRegisters. -/
theorem witness_LdMemVStoresRegisters_LdVMemLoadsRegisters :
    (State.reset.setIr 4095).ir.toNat + (0 : Reg).val < 4096 ∧ (State.reset.setIr 4080).ir.toNat + (15 : Reg).val < 4096 ∧
      (0 : Reg) ≤ 0 ∧ (0 : Reg) < 1 := by decide

theorem witness_StoreThenLoadRestoresRegisters :
    let s := regs [(0, 7)] (State.reset.setIr 4095)
    let t := { s with mem := [(4095, 7)], pc := 2 }
    s.ir.toNat + (0 : Reg).val < 4096 ∧ exec (.ldMemV 0) s = .next t ∧ (regs [(0, 9)] t).ir = s.ir ∧
      (regs [(0, 9)] t).mem = t.mem := ⟨by decide, rfl, rfl, rfl⟩

/-- A fault of the fetch and one of an instruction's own check; the other two kinds stand in the next theorem. -/
theorem witness_FaultEntryIsPrecise :
    let s := State.reset.setPc 4095
    let t := s.setMode (.halted ⟨.outOfBounds 4096, 4095, none⟩)
    let s' := start 0x00EE
    let t' := s'.setMode (.halted ⟨.stackUnderflow, 0x200, some 0x00EE⟩)
    s.mode = .running ∧ runNext s = .next t ∧ t.mode = .halted ⟨.outOfBounds 4096, 4095, none⟩ ∧
      s'.mode = .running ∧ runNext s' = .next t' ∧ t'.mode = .halted ⟨.stackUnderflow, 0x200, some 0x00EE⟩ :=
  ⟨rfl, rfl, rfl, rfl, rfl, rfl⟩

theorem witness_FaultEntryIsPrecise_kinds :
    let s := start 0x812F
    let s' := (start 0x2300).setStack (List.replicate 16 0x202)
    s.mode = .running ∧ runNext s = .next (s.setMode (haltedAt200 (.invalidInstruction 0x812F) 0x812F)) ∧
      s'.mode = .running ∧ runNext s' = .next (s'.setMode (haltedAt200 .stackOverflow 0x2300)) :=
  ⟨rfl, rfl, rfl, rfl⟩

/-- The hypotheses of OnlyOwnChecksFault, one for each check, at the first state that fails it and the last that does not. -/
theorem witness_OnlyOwnChecksFault :
    let has := fun (i : Instr) (s : State) (running : Bool) =>
      decide (s.mode = .running) && nextHas (exec i s) (fun t => decide (t.mode = .running) == running)
    has .ret State.reset false && has .ret (State.reset.setStack [2]) true &&
      has (.call 0) (State.reset.setStack (List.replicate 16 2)) false &&
      has (.call 0) (State.reset.setStack (List.replicate 15 2)) true &&
      has (.drw 0 0 1) (State.reset.setIr 4096) false && has (.drw 0 0 0) (State.reset.setIr 4096) true &&
      has (.ldB 0) (State.reset.setIr 4094) false && has (.ldB 0) (State.reset.setIr 4093) true &&
      has (.ldMemV 1) (State.reset.setIr 4095) false && has (.ldMemV 1) (State.reset.setIr 4094) true &&
      has (.ldVMem 1) (State.reset.setIr 4095) false && has (.ldVMem 1) (State.reset.setIr 4094) true &&
      has (.jp 0) State.reset true = true := by decide

/-- A completing and a faulting instruction, for PcAfterEachInstruction and SpecialStateFrame. -/
theorem witness_PcAfterEachInstruction_SpecialStateFrame :
    State.reset.mode = .running ∧ exec (.ldVK 0) State.reset = .next State.reset ∧
      exec (.jp 0xFFF) State.reset = .next (State.reset.setPc 0xFFF) ∧
      exec .ret State.reset = .next (State.reset.setMode (.halted record)) := ⟨rfl, rfl, rfl, rfl⟩

theorem witness_RegisterFrame :
    exec (.ldImm 1 7) State.reset = .next ((State.reset.setPc 2).setV 1 7) ∧ mayWriteReg (.ldImm 1 7) 2 = false ∧
      exec (.ldVMem 15) (State.reset.setIr 4081) = .next ((State.reset.setIr 4081).setMode
        (.halted ⟨.outOfBounds 4096, 0, some 0xFF65⟩)) ∧
      mayWriteReg (.ldVMem 15) 15 = true ∧
      ((State.reset.setIr 4081).setMode (.halted ⟨.outOfBounds 4096, 0, some 0xFF65⟩)).mode ≠
        (State.reset.setIr 4081).mode := ⟨rfl, by decide, rfl, by decide, by decide⟩

/-- An address below the stored bytes, the first above them, and a faulting store. -/
theorem witness_MemoryFrame :
    let s := regs [(0, 123)] (State.reset.setIr 4093)
    exec (.ldB 0) s = .next { s with mem := [(4093, 1), (4094, 2), (4095, 3)], pc := 2 } ∧ 4092 < s.ir.toNat ∧
      s.ir.toNat + storedBytes (.ldB 0) ≤ 4096 ∧
      exec (.ldB 0) (State.reset.setIr 4094) = .next ((State.reset.setIr 4094).setMode
        (.halted ⟨.outOfBounds 4096, 0, some 0xF033⟩)) :=
  ⟨rfl, by decide, by decide, rfl⟩

/-- A state that meets the invariant and its step. -/
theorem witness_StepKeepsInvariant :
    ((State.reset.setPc 0x10FE).setStack [4096]).Inv ∧
      step ((State.reset.setPc 0x10FE).setStack [4096]) = .next (((State.reset.setPc 0x10FE).setStack [4096]).setMode
        (.halted ⟨.outOfBounds 0x10FE, 0x10FE, none⟩)) :=
  ⟨⟨Memory.wf_nil, by decide, fun a h => by rw [List.mem_singleton.1 h]; exact Nat.le_refl 4096, by decide,
    fun _ h => by cases h⟩, rfl⟩

theorem witness_LoadCopiesOrFails :
    4096 < 4096 + ([7] : List Byte).length ∧ 4095 + ([7] : List Byte).length ≤ 4096 ∧ (4096 : Nat) ≤ 4096 ∧
      0 < ([7] : List Byte).length := by decide

/-- The default parameters with the longest program, and the last place for the font with an empty program at the end. -/
theorem witness_BootLeavesProgramAndFont :
    defaultParams.fontBase + 80 ≤ 4096 ∧ defaultParams.progBase + 3584 ≤ 4096 ∧ (List.replicate 3584 (1 : Byte)).length = 3584 ∧
      ({ defaultParams with fontBase := 4016, progBase := 4096 }).fontBase + 80 ≤ 4096 ∧
      ({ defaultParams with fontBase := 4016, progBase := 4096 }).progBase + ([] : List Byte).length ≤ 4096 :=
  ⟨by decide, by decide, List.length_replicate, by decide, by decide⟩

/-- The hypotheses of TickDecrementsEachTimerOnce and KeyboardPortWritesKeyAndExit. -/
theorem witness_TickDecrementsEachTimerOnce_KeyboardPortWritesKeyAndExit :
    State.reset.timer = .waiting ∧ State.reset.exit = false ∧ State.reset.mode = .running := by decide

theorem witness_TimerActorReachesTimersOnly :
    ∀ e ∈ [Event.periodBoundary, .decSound, .decDelay], e = .periodBoundary ∨ e = .decDelay ∨ e = .decSound := by decide

theorem witness_HostCannotChangeCoreState :
    ∀ e ∈ [Event.setCurrentKey (some 3), .requestExit, .getDisplay],
      (∃ k, e = .setCurrentKey k) ∨ e = .requestExit ∨ e = .getDisplay := by simp

/-- EXIT set within a tick, with the signal before any tick, and with the actor stopped. -/
theorem witness_AtMostOneTickFollowsTermination :
    let s := { State.reset with exit := true, timer := .bothDue, dt := 2, st := 2 }
    (∀ e ∈ [Event.decDelay, .decSound, .periodBoundary, .decDelay], e ≠ .runNextInstruction) ∧ terminated s = true ∧
      actAll [.decDelay, .decSound, .periodBoundary, .decDelay] s = .next { s with timer := .stopped, dt := 1, st := 1 } ∧
      terminated (State.reset.setMode (.halted record)) = true ∧
      (State.reset.setMode (.halted record)).timer = .waiting ∧ (State.reset.setTimer .stopped).timer = .stopped :=
  ⟨by decide, rfl, rfl, rfl, rfl, rfl⟩

theorem witness_DelayTimerRisesOnlyByLdDtV :
    act .runNextInstruction (regs [(1, 0xFF)] (start 0xF115)) =
      .next { regs [(1, 0xFF)] (start 0xF115) with dt := 0xFF, pc := 0x202 } := rfl

theorem witness_ExitIsStickyAndParamsAreFixed :
    let s := { State.reset with mode := .halted record, exit := true, schedule := [.getDisplay] }
    step s = .next { s with schedule := [] } ∧ s.exit = true ∧ s.mode = .halted record := ⟨rfl, rfl, rfl⟩

/-! ### A weakly fair execution: a jump to itself, with a whole tick after each of its steps -/

/-- The actions, over and over: a step, a period boundary, DecDelay, DecSound. -/
def loopEvent (n : Nat) : Event :=
  if n % 4 = 0 then .runNextInstruction else if n % 4 = 1 then .periodBoundary
  else if n % 4 = 2 then .decDelay else .decSound

/-- The states: 0x1000 at address 0, DT counting down from 2 to 0. -/
def loopState (n : Nat) : State :=
  { State.reset with
    mem := [(0, 0x10)]
    dt := BitVec.ofNat 8 (2 - (n + 1) / 4)
    timer := if n % 4 = 2 then .bothDue else if n % 4 = 3 then .soundDue else .waiting }

/-- The state of the loop, for a value of DT and a phase of the timer actor. -/
def loopAt (d : Byte) (p : TimerPhase) : State := { State.reset with mem := [(0, 0x10)], dt := d, timer := p }

theorem loopAt_fetch (d : Byte) (p : TimerPhase) : fetch (loopAt d p) = .ok 0x1000 :=
  (fetch_of_inside (s := loopAt d p) (show 0 + 2 ≤ 4096 by decide)).trans
    (congrArg Except.ok (by decide : wordOfBytes 0x10 0 = 0x1000))

theorem loopAt_step (d : Byte) (p : TimerPhase) : act .runNextInstruction (loopAt d p) = .next (loopAt d p) := by
  have h : decodeWord 0x1000 = some (.jp 0) := by decide
  have hj : exec (.jp 0) (loopAt d p) = .next (loopAt d p) := rfl
  simp only [act, runNext, engineStep, loopAt_fetch, h, hj, show (loopAt d p).mode = .running from rfl]

theorem loopState_isExecution : IsExecution loopState loopEvent := by
  intro n
  obtain ⟨q, r, hr, rfl⟩ : ∃ q r, r < 4 ∧ n = 4 * q + r := ⟨n / 4, n % 4, Nat.mod_lt _ (by omega), by omega⟩
  have h0 : (4 * q + r) % 4 = r := by omega
  have hdt : ∀ k, k < 4 → (4 * q + k + 1) / 4 = if k = 3 then q + 1 else q := by
    intro k hk
    split <;> omega
  unfold loopEvent loopState
  rw [h0, hdt r hr]
  interval_cases r
  · have h1 : (4 * q + 0 + 1) % 4 = 1 := by omega
    rw [h1, show (4 * q + 0 + 1 + 1) / 4 = q by omega]
    exact loopAt_step _ _
  · have h1 : (4 * q + 1 + 1) % 4 = 2 := by omega
    rw [h1, show (4 * q + 1 + 1 + 1) / 4 = q by omega]
    rfl
  · have h1 : (4 * q + 2 + 1) % 4 = 3 := by omega
    rw [h1, show (4 * q + 2 + 1 + 1) / 4 = q + 1 by omega]
    have h2 : decTimer (BitVec.ofNat 8 (2 - q)) = BitVec.ofNat 8 (2 - (q + 1)) := by
      rcases q with _ | _ | q
      · rfl
      · rfl
      · rw [show 2 - (q + 1 + 1) = 0 by omega, show 2 - (q + 1 + 1 + 1) = 0 by omega]
        rfl
    rw [← h2]
    rfl
  · have h1 : (4 * q + 3 + 1) % 4 = 0 := by omega
    rw [h1, show (4 * q + 3 + 1 + 1) / 4 = q + 1 by omega]
    rfl

theorem loopState_notStopped (n : Nat) : (loopState n).timer ≠ .stopped := by
  simp only [loopState]
  repeat' split
  all_goals simp

/-- The execution meets the hypotheses of DelayTimerReachesZeroWhenFair with an actor that never stops. -/
theorem witness_DelayTimerReachesZeroWhenFair :
    IsExecution loopState loopEvent ∧ WeaklyFair loopState loopEvent ∧
      InfinitelyOften (fun n => loopEvent n = .runNextInstruction) ∧ (∀ n, (loopState n).timer ≠ .stopped) ∧
      (∀ n, terminated (loopState n) = false) ∧
      (∀ n, (loopState (n + 1)).dt.toNat ≤ (loopState n).dt.toNat) ∧ (loopState 0).dt = 2 := by
  refine ⟨loopState_isExecution, fun _ _ n => ⟨4 * n + 1, by omega, ?_, ?_, rfl⟩, fun n => ⟨4 * n, by omega, ?_⟩,
    loopState_notStopped, fun n => rfl, fun n => ?_, rfl⟩
  · simp only [loopEvent]
    rw [show (4 * n + 1) % 4 = 1 by omega]
    rfl
  · simp only [loopState]
    rw [show (4 * n + 1) % 4 = 1 by omega]
    rfl
  · simp only [loopEvent]
    rw [show 4 * n % 4 = 0 by omega]
    rfl
  · simp only [loopState, BitVec.toNat_ofNat]
    rw [Nat.mod_eq_of_lt (by omega), Nat.mod_eq_of_lt (by omega)]
    omega

/-! ### A weakly fair execution with a termination signal: EXIT is set, the actor stops, the jump runs on -/

/-- A period boundary first, then steps of the engine. -/
def exitEvent : Nat → Event
  | 0 => .periodBoundary
  | _ + 1 => .runNextInstruction

/-- The jump to itself with EXIT set: the actor waits, then has stopped. -/
def exitState : Nat → State
  | 0 => (loopAt 2 .waiting).setExit true
  | _ + 1 => (loopAt 2 .stopped).setExit true

theorem exitState_step :
    act .runNextInstruction ((loopAt 2 .stopped).setExit true) = .next ((loopAt 2 .stopped).setExit true) := by
  have hf : fetch ((loopAt 2 .stopped).setExit true) = .ok 0x1000 := loopAt_fetch 2 .stopped
  have h : decodeWord 0x1000 = some (.jp 0) := by decide
  have hj : exec (.jp 0) ((loopAt 2 .stopped).setExit true) = .next ((loopAt 2 .stopped).setExit true) := rfl
  simp only [act, runNext, engineStep, hf, h, hj, show ((loopAt 2 .stopped).setExit true).mode = .running from rfl]

/-- The execution meets the hypotheses of DelayTimerReachesZeroWhenFair with a termination signal. -/
theorem witness_DelayTimerReachesZeroWhenFair_exit :
    IsExecution exitState exitEvent ∧ WeaklyFair exitState exitEvent ∧
      InfinitelyOften (fun n => exitEvent n = .runNextInstruction) ∧ terminated (exitState 0) = true ∧
      (exitState 0).timer = .waiting :=
  ⟨fun n => match n with
    | 0 => rfl
    | _ + 1 => exitState_step,
   fun _ h => absurd rfl (h 1), fun n => ⟨n + 1, Nat.le_succ n, rfl⟩, rfl, rfl⟩

/-- An execution that R138 rules out: EXIT is set within a tick, the engine steps on and the actor never acts again. -/
theorem test_WeaklyFair_excludes_a_frozen_tick :
    ¬ WeaklyFair (fun _ => (loopAt 2 .bothDue).setExit true) (fun _ => .runNextInstruction) := by
  intro h
  obtain ⟨_, _, h, _⟩ := h (fun n => ⟨n, Nat.le_refl n, rfl⟩) (fun _ h => by cases h) 0
  cases h


end Sys2Proof.Tests
end

/-! ## Words that do not decode (30_encoding R73) -/

namespace Sys2Proof

/-- One test of a decoder's chain. -/
theorem ite_some_eq_none_iff {α : Type} {p : Prop} [Decidable p] {a : α} {o : Option α} :
    (if p then some a else o) = none ↔ ¬p ∧ o = none := by
  by_cases hp : p <;> simp [hp]

theorem wellFormed0_eq_false_of_decode0_eq_none {w : Word} (hf : fieldF w = 0x0#4) (h : decode0 w = none) :
    wellFormed0 w = false := by
  simp only [decode0, ite_some_eq_none_iff] at h
  simp only [fieldF] at hf
  simp [wellFormed0, hf, h]

theorem wellFormed8_eq_false_of_decode8_eq_none {w : Word} (hf : fieldF w = 0x8#4) (h : decode8 w = none) :
    wellFormed8 w = false := by
  simp only [decode8, ite_some_eq_none_iff] at h
  simp only [fieldF, fieldN] at hf h
  simp [wellFormed8, hf, h]

theorem wellFormedE_eq_false_of_decodeE_eq_none {w : Word} (hf : fieldF w = 0xE#4) (h : decodeE w = none) :
    wellFormedE w = false := by
  simp only [decodeE, ite_some_eq_none_iff] at h
  simp only [fieldF, fieldNN] at hf h
  simp [wellFormedE, hf, h]

theorem wellFormedF_eq_false_of_decodeF_eq_none {w : Word} (hf : fieldF w = 0xF#4) (h : decodeF w = none) :
    wellFormedF w = false := by
  simp only [decodeF, ite_some_eq_none_iff] at h
  simp only [fieldF, fieldNN] at hf h
  simp [wellFormedF, hf, h]

theorem wellFormed5_eq_false_of_fieldN_ne_zero {w : Word} (hf : fieldF w = 0x5#4) (h : fieldN w ≠ 0#4) :
    wellFormed5 w = false := by
  simp only [fieldF, fieldN] at hf h
  simp [wellFormed5, hf, h]

theorem wellFormed9_eq_false_of_fieldN_ne_zero {w : Word} (hf : fieldF w = 0x9#4) (h : fieldN w ≠ 0#4) :
    wellFormed9 w = false := by
  simp only [fieldF, fieldN] at hf h
  simp [wellFormed9, hf, h]

/-- A word that does not decode is of one of the six families of R73, and fails that family's check. -/
theorem decodeWord_eq_none_cases {w : Word} (h : decodeWord w = none) :
    (fieldF w = 0x0#4 ∧ decode0 w = none) ∨ (fieldF w = 0x5#4 ∧ fieldN w ≠ 0#4) ∨
      (fieldF w = 0x8#4 ∧ decode8 w = none) ∨ (fieldF w = 0x9#4 ∧ fieldN w ≠ 0#4) ∨
      (fieldF w = 0xE#4 ∧ decodeE w = none) ∨ (fieldF w = 0xF#4 ∧ decodeF w = none) := by
  have hF : fieldF w = 0xF#4 ∨ fieldF w ∈ [0x0#4, 0x1#4, 0x2#4, 0x3#4, 0x4#4, 0x5#4, 0x6#4, 0x7#4, 0x8#4, 0x9#4,
      0xA#4, 0xB#4, 0xC#4, 0xD#4, 0xE#4] := by
    generalize fieldF w = f
    revert f
    decide
  simp only [List.mem_cons, List.not_mem_nil, or_false] at hF
  rcases hF with hf | hf | hf | hf | hf | hf | hf | hf | hf | hf | hf | hf | hf | hf | hf | hf <;>
    simp_all [decodeWord]

/-- The decoder and the checks agree on the words that are no instructions (30_encoding R72, R73). -/
theorem wellFormed_eq_false_of_decodeWord_eq_none {w : Word} (h : decodeWord w = none) : wellFormed w = false := by
  rcases decodeWord_eq_none_cases h with ⟨hf, hd⟩ | ⟨hf, hd⟩ | ⟨hf, hd⟩ | ⟨hf, hd⟩ | ⟨hf, hd⟩ | ⟨hf, hd⟩
  · simp [wellFormed, wellFormed0_eq_false_of_decode0_eq_none hf hd]
  · simp [wellFormed, wellFormed5_eq_false_of_fieldN_ne_zero hf hd]
  · simp [wellFormed, wellFormed8_eq_false_of_decode8_eq_none hf hd]
  · simp [wellFormed, wellFormed9_eq_false_of_fieldN_ne_zero hf hd]
  · simp [wellFormed, wellFormedE_eq_false_of_decodeE_eq_none hf hd]
  · simp [wellFormed, wellFormedF_eq_false_of_decodeF_eq_none hf hd]

end Sys2Proof

namespace Sys2Proof.Machine

/-! ## The effect of an instruction, field by field -/

@[simp] theorem State.setRegs_getV (s : State) (w : Vector Byte 16) (r : Reg) : (s.setRegs w).getV r = w[r.val] := rfl

/-- Fx0A takes the waiting key; without one the rewind undoes the fetch's advance, and nothing changes (45_key_timer_fx
R115). -/
theorem effectOf_ldVK_cases (x : Reg) (s : State) :
    (s.key = none ∧ effectOf (.ldVK x) s = s) ∨
      ∃ k, s.key = some k ∧ effectOf (.ldVK x) s = (s.advance.setV x (keyByte k)).setKey none := by
  cases h : s.key with
  | none => exact .inl ⟨rfl, by simp [effectOf, h]⟩
  | some k => exact .inr ⟨k, rfl, by simp [effectOf, h]⟩

/-- What no instruction's own effect writes. -/
theorem effectOf_frame (i : Instr) (s : State) :
    (effectOf i s).mode = s.mode ∧ (effectOf i s).exit = s.exit ∧ (effectOf i s).timer = s.timer ∧
      (effectOf i s).params = s.params ∧ (effectOf i s).schedule = s.schedule := by
  cases i with
  | ldVK x => rcases effectOf_ldVK_cases x s with ⟨-, h⟩ | ⟨k, -, h⟩ <;> simp [h]
  | _ => simp [effectOf]

@[simp] theorem effectOf_mode (i : Instr) (s : State) : (effectOf i s).mode = s.mode := (effectOf_frame i s).1

theorem effectOf_ir (i : Instr) (s : State) :
    (effectOf i s).ir = s.ir ∨ (∃ nnn, i = .ldI nnn) ∨ (∃ x, i = .ldIV x) ∨ ∃ x, i = .ldF x := by
  cases i with
  | ldI nnn => exact .inr (.inl ⟨nnn, rfl⟩)
  | ldIV x => exact .inr (.inr (.inl ⟨x, rfl⟩))
  | ldF x => exact .inr (.inr (.inr ⟨x, rfl⟩))
  | ldVK x => rcases effectOf_ldVK_cases x s with ⟨-, h⟩ | ⟨k, -, h⟩ <;> simp [h]
  | _ => simp [effectOf]

theorem effectOf_stack (i : Instr) (s : State) :
    (effectOf i s).stack = s.stack ∨ i = .ret ∨ ∃ nnn, i = .call nnn := by
  cases i with
  | ret => exact .inr (.inl rfl)
  | call nnn => exact .inr (.inr ⟨nnn, rfl⟩)
  | ldVK x => rcases effectOf_ldVK_cases x s with ⟨-, h⟩ | ⟨k, -, h⟩ <;> simp [h]
  | _ => simp [effectOf]

theorem effectOf_dt (i : Instr) (s : State) : (effectOf i s).dt = s.dt ∨ ∃ x, i = .ldDtV x := by
  cases i with
  | ldDtV x => exact .inr ⟨x, rfl⟩
  | ldVK x => rcases effectOf_ldVK_cases x s with ⟨-, h⟩ | ⟨k, -, h⟩ <;> simp [h]
  | _ => simp [effectOf]

theorem effectOf_st (i : Instr) (s : State) : (effectOf i s).st = s.st ∨ ∃ x, i = .ldStV x := by
  cases i with
  | ldStV x => exact .inr ⟨x, rfl⟩
  | ldVK x => rcases effectOf_ldVK_cases x s with ⟨-, h⟩ | ⟨k, -, h⟩ <;> simp [h]
  | _ => simp [effectOf]

theorem effectOf_disp (i : Instr) (s : State) :
    (effectOf i s).disp = s.disp ∨ i = .cls ∨ ∃ x y n, i = .drw x y n := by
  cases i with
  | cls => exact .inr (.inl rfl)
  | drw x y n => exact .inr (.inr ⟨x, y, n, rfl⟩)
  | ldVK x => rcases effectOf_ldVK_cases x s with ⟨-, h⟩ | ⟨k, -, h⟩ <;> simp [h]
  | _ => simp [effectOf]

theorem effectOf_draws (i : Instr) (s : State) : (effectOf i s).draws = s.draws ∨ ∃ x nn, i = .rnd x nn := by
  cases i with
  | rnd x nn => exact .inr ⟨x, nn, rfl⟩
  | ldVK x => rcases effectOf_ldVK_cases x s with ⟨-, h⟩ | ⟨k, -, h⟩ <;> simp [h]
  | _ => simp [effectOf]

/-- A key skip keeps KEY or consumes it (45_key_timer_fx R110). -/
theorem keyAfterSkip_eq_or_none (m : KeySkipConsume) (k : Option Key) (v : Byte) :
    keyAfterSkip m k v = k ∨ keyAfterSkip m k v = none := by
  cases m with
  | always => exact .inr rfl
  | onMatch =>
    unfold keyAfterSkip
    cases keyMatches k v
    · exact .inl rfl
    · exact .inr rfl
  | never => exact .inl rfl

theorem effectOf_key (i : Instr) (s : State) :
    (effectOf i s).key = s.key ∨
      ((effectOf i s).key = none ∧ ((∃ x, i = .skp x) ∨ (∃ x, i = .sknp x) ∨ ∃ x, i = .ldVK x)) := by
  cases i with
  | skp x =>
    rcases keyAfterSkip_eq_or_none s.params.keySkipConsume s.key (s.getV x) with h | h <;> simp [effectOf, h]
  | sknp x =>
    rcases keyAfterSkip_eq_or_none s.params.keySkipConsume s.key (s.getV x) with h | h <;> simp [effectOf, h]
  | ldVK x => rcases effectOf_ldVK_cases x s with ⟨-, h⟩ | ⟨k, -, h⟩ <;> simp [h]
  | _ => simp [effectOf]

/-- Memory after an instruction: the bytes it stores, written from ir on (20_memory R49). -/
theorem effectOf_mem (i : Instr) (s : State) :
    ∃ bs : List Byte, bs.length = storedBytes i ∧ (effectOf i s).mem = s.mem.writeBytes s.ir.toNat bs := by
  cases i with
  | ldB x => exact ⟨bcdDigits (s.getV x), rfl, rfl⟩
  | ldMemV x => exact ⟨regsUpTo s x, regsUpTo_length s x, rfl⟩
  | ldVK x =>
    refine ⟨[], rfl, ?_⟩
    rcases effectOf_ldVK_cases x s with ⟨-, h⟩ | ⟨k, -, h⟩ <;> simp [h, Memory.writeBytes]
  | _ => exact ⟨[], rfl, by simp [effectOf, Memory.writeBytes]⟩

theorem State.skipIf_pc_cases (s : State) (c : Bool) : (s.skipIf c).pc = s.pc ∨ (s.skipIf c).pc = s.pc + 2 := by
  cases c
  · exact .inl rfl
  · exact .inr rfl

/-- Where an instruction can take pc: it stays, advances by 2 or 4, jumps to a 12-bit address with a byte added (0 for
1nnn and 2nnn), or returns. -/
theorem effectOf_pc_cases (i : Instr) (s : State) :
    (effectOf i s).pc = s.pc ∨ (effectOf i s).pc = s.pc + 2 ∨ (effectOf i s).pc = s.pc + 2 + 2 ∨
      (∃ (nnn : Addr12) (b : Byte), (effectOf i s).pc = zextAddr nnn + zextByte b) ∨ i = .ret := by
  cases i with
  | ret => exact .inr (.inr (.inr (.inr rfl)))
  | jp nnn => exact .inr (.inr (.inr (.inl ⟨nnn, 0, by simp [effectOf, zextByte]⟩)))
  | call nnn => exact .inr (.inr (.inr (.inl ⟨nnn, 0, by simp [effectOf, zextByte]⟩)))
  | jpV0 nnn => exact .inr (.inr (.inr (.inl ⟨nnn, _, rfl⟩)))
  | seImm x nn => exact .inr ((State.skipIf_pc_cases _ _).imp_right .inl)
  | sneImm x nn => exact .inr ((State.skipIf_pc_cases _ _).imp_right .inl)
  | seReg x y => exact .inr ((State.skipIf_pc_cases _ _).imp_right .inl)
  | sneReg x y => exact .inr ((State.skipIf_pc_cases _ _).imp_right .inl)
  | skp x => exact .inr ((State.skipIf_pc_cases _ _).imp_right .inl)
  | sknp x => exact .inr ((State.skipIf_pc_cases _ _).imp_right .inl)
  | ldVK x => rcases effectOf_ldVK_cases x s with ⟨-, h⟩ | ⟨k, -, h⟩ <;> simp [h]
  | _ => exact .inr (.inl (by simp [effectOf]))

/-- The registers an instruction's own effect writes are those of the access table (10_state R23). -/
theorem effectOf_getV {i : Instr} {r : Reg} (h : mayWriteReg i r = false) (s : State) :
    (effectOf i s).getV r = s.getV r := by
  have one {x : Reg} (h : (r == x) = false) : r ≠ x := by simpa using h
  have flag {x : Reg} (h : (r == x || r == regF) = false) (b : Byte) (f : Bool) :
      (s.advance.writeRF x b f).getV r = s.getV r := by
    obtain ⟨hx, hF⟩ : r ≠ x ∧ r ≠ regF := by simpa using h
    rw [State.getV_writeRF]
    split <;> simp [hx, hF]
  cases i with
  | ldImm x nn => exact State.getV_setV_of_ne _ _ (one h)
  | addImm x nn => exact State.getV_setV_of_ne _ _ (one h)
  | ldReg x y => exact State.getV_setV_of_ne _ _ (one h)
  | or x y => exact State.getV_setV_of_ne _ _ (one h)
  | and x y => exact State.getV_setV_of_ne _ _ (one h)
  | xor x y => exact State.getV_setV_of_ne _ _ (one h)
  | addReg x y => exact flag h _ _
  | sub x y => exact flag h _ _
  | shr x y => exact flag h _ _
  | subn x y => exact flag h _ _
  | shl x y => exact flag h _ _
  | rnd x nn => exact State.getV_setV_of_ne _ _ (one h)
  | drw x y n => exact State.getV_setV_of_ne _ _ (one h)
  | ldVDt x => exact State.getV_setV_of_ne _ _ (one h)
  | ldVK x =>
    rcases effectOf_ldVK_cases x s with ⟨-, he⟩ | ⟨k, -, he⟩
    · rw [he]
    · rw [he]
      exact State.getV_setV_of_ne _ _ (one h)
  | ldVMem x =>
    have hr : x.val + 1 ≤ r.val := Nat.lt_of_not_le (of_decide_eq_false h)
    simp only [effectOf, State.setRegs_getV]
    rw [writeRegs_getElem, Memory.readBytes_length, if_neg (by omega)]
    rfl
  | _ => simp [effectOf]

/-! ## The range and the fault of an instruction's own check -/

/-- What an instruction stores is inside memory when its own check passes (20_memory R52). -/
theorem stores_inside_of_ownFault_eq_none {i : Instr} {s : State} (h : ownFault i s = none) :
    storedBytes i = 0 ∨ s.ir.toNat + storedBytes i ≤ memSize := by
  cases i with
  | ldB x => exact firstOutOfRange_eq_none.1 (Option.map_eq_none_iff.1 h)
  | ldMemV x => exact firstOutOfRange_eq_none.1 (Option.map_eq_none_iff.1 h)
  | _ => exact .inl rfl

/-- The faults of the instructions' own checks (60_exceptions R124, R125). -/
theorem ownFault_cases {i : Instr} {s : State} {f : EngineFault} (h : ownFault i s = some f) :
    (f = .stackUnderflow ∧ s.stack = []) ∨ (f = .stackOverflow ∧ stackDepth ≤ s.stack.length) ∨
      ∃ a, f = .outOfBounds a ∧ memSize ≤ a := by
  cases i with
  | ret =>
    simp only [ownFault, Option.ite_none_right_eq_some, Option.some.injEq] at h
    exact .inl ⟨h.2.symm, h.1⟩
  | call nnn =>
    simp only [ownFault, Option.ite_none_right_eq_some, Option.some.injEq] at h
    exact .inr (.inl ⟨h.2.symm, h.1⟩)
  | _ =>
    simp only [ownFault, Option.map_eq_some_iff] at h
    obtain ⟨a, ha, rfl⟩ := h
    obtain ⟨-, -, hout, -⟩ := firstOutOfRange_first ha
    exact .inr (.inr ⟨a, rfl, hout⟩)

/-! ## What a step can do -/

/-- A next state of the step port: the machine was in Running, and it enters the fault of the fetch, of the decoder or
of the instruction's own check, or takes the instruction's own effect (30_encoding R65, 60_exceptions R129). -/
theorem runNext_next_cases {s t : State} (h : runNext s = .next t) :
    s.mode = .running ∧
      ((memSize < s.pc.toNat + 2 ∧ t = s.haltWith (.outOfBounds (max s.pc.toNat memSize)) none) ∨
        ∃ w, fetch s = .ok w ∧
          ((decodeWord w = none ∧ t = s.haltWith (.invalidInstruction w) (some w)) ∨
            ∃ i, decodeWord w = some i ∧
              ((∃ f, ownFault i s = some f ∧ t = s.haltWith f (some (encode i))) ∨
                (ownFault i s = none ∧ t = effectOf i s)))) := by
  rcases runNext_cases s with ⟨hrun, hr⟩ | ⟨r, -, hr⟩
  · refine ⟨hrun, ?_⟩
    rw [hr] at h
    rcases engineStep_cases s with ⟨hout, he⟩ | ⟨-, w, hw, ⟨hd, he⟩ | ⟨i, hd, he⟩⟩
    · rw [he] at h
      cases h
      exact .inl ⟨hout, rfl⟩
    · rw [he] at h
      cases h
      exact .inr ⟨w, hw, .inl ⟨hd, rfl⟩⟩
    · rw [he] at h
      exact .inr ⟨w, hw, .inr ⟨i, hd, (exec_next_cases h).symm⟩⟩
  · rw [hr] at h
    cases h

/-- Every step is one agent's action, on the state with the rest of the schedule. -/
theorem step_eq_act (s : State) : ∃ e rest, step s = act e (s.setSchedule rest) := by
  rcases step_cases' s with ⟨hs, h⟩ | ⟨e, rest, -, h⟩
  · have : s.setSchedule [] = s := by rw [← hs]; rfl
    exact ⟨.runNextInstruction, [], by rw [this]; exact h⟩
  · exact ⟨e, rest, h⟩

/-- What an action can do: it is a call of the step port, or it writes at most the timers, KEY, EXIT and the timer
actor's phase, and does not clear EXIT (60_exceptions R141, R144, R145). -/
theorem act_next_cases {e : Event} {s t : State} (h : act e s = .next t) :
    (e = .runNextInstruction ∧ runNext s = .next t) ∨
      (t = { s with dt := t.dt, st := t.st, key := t.key, exit := t.exit, timer := t.timer } ∧
        (s.exit = true → t.exit = true)) := by
  cases e with
  | runNextInstruction => exact .inl ⟨rfl, h⟩
  | periodBoundary =>
    cases h
    obtain ⟨p, hp⟩ := periodBoundary_eq s
    rw [hp]
    exact .inr ⟨rfl, id⟩
  | decDelay =>
    cases h
    rcases decDelay_eq s with hd | ⟨p, hd⟩ <;> rw [hd] <;> exact .inr ⟨rfl, id⟩
  | decSound =>
    cases h
    rcases decSound_eq s with hd | ⟨p, hd⟩ <;> rw [hd] <;> exact .inr ⟨rfl, id⟩
  | setCurrentKey k =>
    cases h
    rcases setCurrentKey_eq k s with hk | ⟨-, hk⟩ <;> rw [hk] <;> exact .inr ⟨rfl, id⟩
  | requestExit =>
    cases h
    rcases requestExit_eq s with hk | ⟨-, hk⟩ <;> rw [hk]
    · exact .inr ⟨rfl, id⟩
    · exact .inr ⟨rfl, fun _ => rfl⟩
  | getDisplay =>
    cases h
    exact .inr ⟨rfl, id⟩

/-! ## The invariant (10_state R26, R31; 20_memory R42; 60_exceptions R127) -/

/-- The invariant speaks of memory, the stack, pc and the mode only. -/
theorem State.Inv.of_core_eq {s t : State} (h : s.Inv) (hmem : t.mem = s.mem) (hstack : t.stack = s.stack)
    (hpc : t.pc = s.pc) (hmode : t.mode = s.mode) : t.Inv where
  memory := hmem ▸ h.memory
  stackDepth := hstack ▸ h.stackDepth
  stackEntries := hstack ▸ h.stackEntries
  pcRange := hpc ▸ h.pcRange
  record r hr := by
    have fits := h.record r (hmode ▸ hr)
    unfold FaultRecord.fits at fits ⊢
    rwa [hpc, hstack]

/-- Fault entry keeps the invariant if the record fits (60_exceptions R127). -/
theorem State.Inv.haltWith {s : State} (h : s.Inv) {f : EngineFault} {w : Option Word}
    (fits : FaultRecord.fits ⟨f, s.pc, w⟩ s) : (s.haltWith f w).Inv where
  memory := h.memory
  stackDepth := h.stackDepth
  stackEntries := h.stackEntries
  pcRange := h.pcRange
  record r hr := by
    obtain rfl : (⟨f, s.pc, w⟩ : FaultRecord) = r := by simpa using hr
    exact fits

/-- The fault of an instruction's own check fits the state it is raised in. -/
theorem ownFault_fits {i : Instr} {s : State} {f : EngineFault} (h : s.Inv) (hf : ownFault i s = some f)
    (w : Option Word) : FaultRecord.fits ⟨f, s.pc, w⟩ s := by
  rcases ownFault_cases hf with ⟨rfl, hstack⟩ | ⟨rfl, hfull⟩ | ⟨a, rfl, ha⟩
  · exact ⟨rfl, hstack⟩
  · exact ⟨rfl, Nat.le_antisymm h.stackDepth hfull⟩
  · exact ⟨rfl, ha⟩

/-- A 12-bit address with a byte added is at most 0xFFF + 0xFF (10_state R26). -/
theorem zextAddr_add_zextByte_le (nnn : Addr12) (b : Byte) : (zextAddr nnn + zextByte b).toNat ≤ 0x10FE := by
  have := nnn.isLt
  have := b.isLt
  rw [BitVec.toNat_add, zextAddr_toNat, zextByte_toNat]
  omega

/-- The entry that RET pops is one of the stack's (41_control_flow R79). -/
theorem effectOf_ret_pc_mem {s : State} (h : ownFault .ret s = none) : (effectOf .ret s).pc ∈ s.stack := by
  have hne : s.stack ≠ [] := by simpa [ownFault] using h
  simp [effectOf, List.getLast?_eq_some_getLast hne]

theorem effectOf_pc_le {i : Instr} {s : State} (h : s.Inv) (hin : s.pc.toNat + 2 ≤ memSize)
    (hf : ownFault i s = none) : (effectOf i s).pc.toNat ≤ 0x10FE := by
  have hin : s.pc.toNat + 2 ≤ 4096 := hin
  rcases effectOf_pc_cases i s with hpc | hpc | hpc | ⟨nnn, b, hpc⟩ | rfl
  · rw [hpc]; exact h.pcRange
  · rw [hpc]; bv_omega
  · rw [hpc]; bv_omega
  · rw [hpc]; exact zextAddr_add_zextByte_le nnn b
  · exact Nat.le_trans (h.stackEntries _ (effectOf_ret_pc_mem hf)) (by decide)

theorem effectOf_stack_length_le {i : Instr} {s : State} (h : s.Inv) (hf : ownFault i s = none) :
    (effectOf i s).stack.length ≤ stackDepth := by
  rcases effectOf_stack i s with hs | rfl | ⟨nnn, rfl⟩
  · rw [hs]; exact h.stackDepth
  · have := h.stackDepth
    simp only [effectOf, State.setPc_stack, State.setStack_stack, List.length_dropLast]
    omega
  · have hroom : s.stack.length < stackDepth := by simpa [ownFault] using hf
    simpa [effectOf] using hroom

/-- 2nnn pushes P + 2, which is at most 4096 where both bytes were fetched; 00EE pushes nothing (10_state R31). -/
theorem effectOf_stack_entries_le {i : Instr} {s : State} (h : s.Inv) (hin : s.pc.toNat + 2 ≤ memSize) :
    ∀ a ∈ (effectOf i s).stack, a.toNat ≤ memSize := by
  rcases effectOf_stack i s with hs | rfl | ⟨nnn, rfl⟩
  · rw [hs]; exact h.stackEntries
  · exact fun a ha => h.stackEntries a (List.mem_of_mem_dropLast ha)
  · intro a ha
    rcases List.mem_append.1 ha with ha | ha
    · exact h.stackEntries a ha
    · rw [List.mem_singleton.1 ha]
      have hin : s.pc.toNat + 2 ≤ 4096 := hin
      show (s.pc + 2).toNat ≤ 4096
      bv_omega

theorem effectOf_mem_wf {i : Instr} {s : State} (h : s.Inv) (hf : ownFault i s = none) : (effectOf i s).mem.wf := by
  obtain ⟨bs, hlen, hmem⟩ := effectOf_mem i s
  rw [hmem]
  refine Memory.wf_writeBytes h.memory ?_
  rw [hlen, ← List.length_eq_zero_iff, hlen]
  exact stores_inside_of_ownFault_eq_none hf

/-- An instruction fetched in memory, in Running, whose own check passes keeps the invariant. -/
theorem State.Inv.effectOf {i : Instr} {s : State} (h : s.Inv) (hrun : s.mode = .running)
    (hin : s.pc.toNat + 2 ≤ memSize) (hf : ownFault i s = none) : (effectOf i s).Inv where
  memory := effectOf_mem_wf h hf
  stackDepth := effectOf_stack_length_le h hf
  stackEntries := effectOf_stack_entries_le h hin
  pcRange := effectOf_pc_le h hin hf
  record r hr := by
    rw [effectOf_mode, hrun] at hr
    cases hr

theorem runNext_keeps_inv {s t : State} (h : s.Inv) (hn : runNext s = .next t) : t.Inv := by
  obtain ⟨hrun, ⟨-, rfl⟩ | ⟨w, hw, ⟨hd, rfl⟩ | ⟨i, -, ⟨f, hf, rfl⟩ | ⟨hf, rfl⟩⟩⟩⟩ := runNext_next_cases hn
  · exact h.haltWith ⟨rfl, Nat.le_max_right _ _⟩
  · exact h.haltWith ⟨rfl, rfl, wellFormed_eq_false_of_decodeWord_eq_none hd⟩
  · exact h.haltWith (ownFault_fits h hf _)
  · exact h.effectOf hrun (fetch_inside_of_ok hw) hf

/-- Every action of every agent keeps the invariant. -/
theorem act_keeps_inv {e : Event} {s t : State} (h : s.Inv) (ha : act e s = .next t) : t.Inv := by
  rcases act_next_cases ha with ⟨-, hn⟩ | ⟨ht, -⟩
  · exact runNext_keeps_inv h hn
  · rw [ht]
    exact h.of_core_eq rfl rfl rfl rfl

/-- Settles O47: a step is an action of an agent on the state with the rest of the schedule, which meets the invariant
too. -/
theorem stepKeepsInvariant : Obligations.StepKeepsInvariant := by
  unfold Obligations.StepKeepsInvariant
  intro s t h hs
  obtain ⟨e, rest, he⟩ := step_eq_act s
  rw [he] at hs
  exact act_keeps_inv (h.of_core_eq (t := s.setSchedule rest) rfl rfl rfl rfl) hs

/-! ## What pc, the registers and the special state are after an instruction -/

/-- Bnnn's target is the plain sum, which does not wrap (41_control_flow R82). -/
theorem zextAddr_add_zextByte (nnn : Addr12) (b : Byte) :
    zextAddr nnn + zextByte b = BitVec.ofNat 16 (nnn.toNat + b.toNat) := by
  apply BitVec.eq_of_toNat_eq
  rw [BitVec.toNat_add, zextAddr_toNat, zextByte_toNat, BitVec.toNat_ofNat]

/-- Settles O43: a fault entry leaves P, and each instruction's own effect sets pc as its row of R25 says. -/
theorem pcAfterEachInstruction : Obligations.PcAfterEachInstruction := by
  unfold Obligations.PcAfterEachInstruction
  intro i s t hrun h
  rcases exec_next_cases h with ⟨hf, rfl⟩ | ⟨f, -, rfl⟩
  · rw [effectOf_mode, if_pos hrun]
    cases i with
    | seImm x nn => simp [effectOf, add_two_two]
    | sneImm x nn => simp [effectOf, add_two_two]
    | seReg x y => simp [effectOf, add_two_two]
    | sneReg x y => simp [effectOf, add_two_two]
    | skp x => simp [effectOf, add_two_two, keyMatches_iff]
    | sknp x =>
      simp only [ne_eq, ← keyMatches_iff]
      simp [effectOf, add_two_two]
    | ret => simp [effectOf, List.getLastD_eq_getLast?]
    | jpV0 nnn =>
      refine (zextAddr_add_zextByte nnn _).trans ?_
      simp only [jumpOffsetReg]
      split <;> rfl
    | ldVK x => rcases effectOf_ldVK_cases x s with ⟨hk, he⟩ | ⟨k, hk, he⟩ <;> simp [hk, he]
    | _ => simp [effectOf, zextAddr]
  · simp

/-- Settles O44: a fault entry writes no register, and an instruction's own effect only those of its row of R23. -/
theorem registerFrame : Obligations.RegisterFrame := by
  unfold Obligations.RegisterFrame
  intro i s t r h hr
  rcases exec_next_cases h with ⟨-, rfl⟩ | ⟨f, -, rfl⟩
  · exact effectOf_getV (hr.resolve_right fun hmode => hmode (effectOf_mode i s)) s
  · exact State.haltWith_getV s _ _ r

/-- Settles O46: a fault entry writes the mode alone, and an instruction's own effect each field only where the spec
says. -/
theorem specialStateFrame : Obligations.SpecialStateFrame := by
  unfold Obligations.SpecialStateFrame
  intro i s t h
  rcases exec_next_cases h with ⟨-, rfl⟩ | ⟨f, -, rfl⟩
  · obtain ⟨-, hexit, htimer, hparams, hschedule⟩ := effectOf_frame i s
    exact ⟨effectOf_ir i s, effectOf_stack i s, effectOf_dt i s, effectOf_st i s, effectOf_disp i s, effectOf_key i s,
      hexit, htimer, hparams, hschedule, effectOf_draws i s⟩
  · simp

theorem runNext_params_exit {s t : State} (h : runNext s = .next t) : t.params = s.params ∧ t.exit = s.exit := by
  obtain ⟨-, ⟨-, rfl⟩ | ⟨w, -, ⟨-, rfl⟩ | ⟨i, -, ⟨f, -, rfl⟩ | ⟨-, rfl⟩⟩⟩⟩ := runNext_next_cases h
  · exact ⟨rfl, rfl⟩
  · exact ⟨rfl, rfl⟩
  · exact ⟨rfl, rfl⟩
  · obtain ⟨-, hexit, -, hparams, -⟩ := effectOf_frame i s
    exact ⟨hparams, hexit⟩

/-- No action of an agent clears EXIT, changes a parameter or leaves Halted. -/
theorem act_keeps_exit_params_halted {e : Event} {s t : State} (h : act e s = .next t) :
    (s.exit = true → t.exit = true) ∧ t.params = s.params ∧ (∀ r, s.mode = .halted r → t.mode = .halted r) := by
  rcases act_next_cases h with ⟨-, hn⟩ | ⟨ht, hexit⟩
  · obtain ⟨hparams, hexit⟩ := runNext_params_exit hn
    obtain ⟨hrun, -⟩ := runNext_next_cases hn
    exact ⟨fun he => hexit.trans he, hparams, fun r hr => by rw [hrun] at hr; cases hr⟩
  · rw [ht]
    exact ⟨hexit, rfl, fun r hr => hr⟩

/-- Settles O58: a step is an action of an agent on the state with the rest of the schedule. -/
theorem exitIsStickyAndParamsAreFixed : Obligations.ExitIsStickyAndParamsAreFixed := by
  unfold Obligations.ExitIsStickyAndParamsAreFixed
  intro s t h
  obtain ⟨e, rest, he⟩ := step_eq_act s
  rw [he] at h
  simpa using act_keeps_exit_params_halted h

/-! ## ST, EXIT and the timer actor's phase are read by no instruction (10_state R33, R36) -/

/-- The state with other values of ST, EXIT and the timer actor's phase. -/
def State.withUnseen (s : State) (b : Byte) (e : Bool) (p : TimerPhase) : State :=
  { s with st := b, exit := e, timer := p }

/-- Two outcomes of the engine, from states that differ in ST, EXIT and the timer actor's phase only, are alike: both
are the same refusal, or both are next states that differ in no more, and the second's ST is what it was before or what
the first's is. -/
def AlikeButUnseen (b : Byte) (e : Bool) (p : TimerPhase) (r r' : Result) : Prop :=
  (∃ t b', r = .next t ∧ r' = .next (t.withUnseen b' e p) ∧ (b' = b ∨ b' = t.st)) ∨
    ∃ q, r = .refused q ∧ r' = .refused q

section Unseen

variable (s : State) (b : Byte) (e : Bool) (p : TimerPhase)

theorem haltWith_alikeButUnseen (f : EngineFault) (w : Option Word) :
    AlikeButUnseen b e p (.next (s.haltWith f w)) (.next ((s.withUnseen b e p).haltWith f w)) :=
  .inl ⟨_, b, rfl, rfl, .inl rfl⟩

theorem skipIf_withUnseen (c : Bool) : (s.withUnseen b e p).skipIf c = (s.skipIf c).withUnseen b e p := by
  cases c <;> rfl

theorem writeRF_withUnseen (x : Reg) (r : Byte) (f : Bool) :
    (s.withUnseen b e p).writeRF x r f = (s.writeRF x r f).withUnseen b e p := by
  have hparams : (s.withUnseen b e p).params = s.params := rfl
  unfold State.writeRF
  rw [hparams]
  cases s.params.flagOrder <;> rfl

/-- An instruction's own effect carries ST, EXIT and the phase along unread; Fx18 writes ST. -/
theorem effectOf_withUnseen (i : Instr) :
    ∃ b', effectOf i (s.withUnseen b e p) = (effectOf i s).withUnseen b' e p ∧ (b' = b ∨ b' = (effectOf i s).st) := by
  cases i with
  | ldStV x => exact ⟨s.getV x, rfl, .inr rfl⟩
  | seImm x nn => exact ⟨b, skipIf_withUnseen s.advance b e p _, .inl rfl⟩
  | sneImm x nn => exact ⟨b, skipIf_withUnseen s.advance b e p _, .inl rfl⟩
  | seReg x y => exact ⟨b, skipIf_withUnseen s.advance b e p _, .inl rfl⟩
  | sneReg x y => exact ⟨b, skipIf_withUnseen s.advance b e p _, .inl rfl⟩
  | skp x => exact ⟨b, skipIf_withUnseen (s.advance.setKey _) b e p _, .inl rfl⟩
  | sknp x => exact ⟨b, skipIf_withUnseen (s.advance.setKey _) b e p _, .inl rfl⟩
  | addReg x y => exact ⟨b, writeRF_withUnseen s.advance b e p x _ _, .inl rfl⟩
  | sub x y => exact ⟨b, writeRF_withUnseen s.advance b e p x _ _, .inl rfl⟩
  | shr x y => exact ⟨b, writeRF_withUnseen s.advance b e p x _ _, .inl rfl⟩
  | subn x y => exact ⟨b, writeRF_withUnseen s.advance b e p x _ _, .inl rfl⟩
  | shl x y => exact ⟨b, writeRF_withUnseen s.advance b e p x _ _, .inl rfl⟩
  | ldVK x =>
    have hkey : (s.withUnseen b e p).key = s.key := rfl
    refine ⟨b, ?_, .inl rfl⟩
    simp only [effectOf, hkey]
    cases s.key <;> rfl
  | _ => exact ⟨b, rfl, .inl rfl⟩

theorem exec_alikeButUnseen (i : Instr) : AlikeButUnseen b e p (exec i s) (exec i (s.withUnseen b e p)) := by
  have hfault : ownFault i (s.withUnseen b e p) = ownFault i s := by cases i <;> rfl
  obtain ⟨b', heffect, hb'⟩ := effectOf_withUnseen s b e p i
  have alike : AlikeButUnseen b e p (.next (effectOf i s)) (.next (effectOf i (s.withUnseen b e p))) :=
    .inl ⟨_, b', rfl, by rw [heffect], hb'⟩
  rw [exec_eq, exec_eq, hfault]
  cases ownFault i s with
  | some f => exact haltWith_alikeButUnseen s b e p f _
  | none =>
    cases i with
    | ldF x =>
      have hv : (s.withUnseen b e p).getV x = s.getV x := rfl
      simp only [hv]
      split
      · exact .inr ⟨_, rfl, rfl⟩
      · exact alike
    | _ => exact alike

theorem engineStep_alikeButUnseen : AlikeButUnseen b e p (engineStep s) (engineStep (s.withUnseen b e p)) := by
  have hfetch : fetch (s.withUnseen b e p) = fetch s := rfl
  unfold engineStep
  rw [hfetch]
  cases fetch s with
  | error f => exact haltWith_alikeButUnseen s b e p f _
  | ok w =>
    simp only
    cases decodeWord w with
    | none => exact haltWith_alikeButUnseen s b e p _ _
    | some i => exact exec_alikeButUnseen s b e p i

end Unseen

/-- Settles O59: the fetch, the checks and the effects read neither ST nor EXIT nor the timer actor's phase. -/
theorem soundTimerAndExitAreInvisible : Obligations.SoundTimerAndExitAreInvisible := by
  unfold Obligations.SoundTimerAndExitAreInvisible
  intro s b e p
  rcases engineStep_alikeButUnseen s b e p with ⟨t, b', hs, hs', hb'⟩ | ⟨q, hs, hs'⟩
  · have hs' : engineStep { s with st := b, exit := e, timer := p } = .next (t.withUnseen b' e p) := hs'
    rw [hs, hs']
    exact ⟨rfl, hb'⟩
  · have hs' : engineStep { s with st := b, exit := e, timer := p } = .refused q := hs'
    rw [hs, hs']

/-! ## The reset state (10_state R40) -/

/-- Settles O49. -/
theorem resetState : Obligations.ResetState := by
  unfold Obligations.ResetState
  refine ⟨fun a => rfl, fun r => ?_, rfl, rfl, rfl, rfl, rfl, fun r c => ?_, rfl, rfl, rfl⟩
  · simp [State.getV, State.reset]
  · simp [Display.pixel, State.reset]

/-- Settles O48: an empty memory and an empty stack, pc = 0 and Running. -/
theorem resetMeetsInvariant : Obligations.ResetMeetsInvariant := by
  unfold Obligations.ResetMeetsInvariant
  exact ⟨Memory.wf_nil, by decide, by simp [State.reset], by decide, fun r hr => by cases hr⟩

end Sys2Proof.Machine

namespace Sys2Proof.Machine

/-! ## The fetch, stores and loads (20_memory R46, R49, R55) -/

/-- Settles O45: a fault entry leaves memory, and an instruction's own effect writes a run of `storedBytes` bytes at
ir. -/
theorem memoryFrame : Obligations.MemoryFrame := by
  unfold Obligations.MemoryFrame
  intro i s t a h ha
  rcases exec_next_cases h with ⟨-, rfl⟩ | ⟨f, -, rfl⟩
  · obtain ⟨bs, hlen, hmem⟩ := effectOf_mem i s
    have hout : a < s.ir.toNat ∨ s.ir.toNat + bs.length ≤ a := by simpa [hlen] using ha
    rw [hmem, Memory.read_writeBytes_outside _ _ _ hout]
  · rw [State.haltWith_mem]

theorem load_of_outside {data : List Byte} {offset : Nat} (h : memSize < offset + data.length) (p : Bool) (s : State) :
    load data offset p s = .error (.outOfBounds (offset + data.length)) := if_pos h

/-- Data that fits is written from the offset on, and a program load moves pc there (20_memory R55). -/
theorem load_of_inside {data : List Byte} {offset : Nat} (h : offset + data.length ≤ memSize) (p : Bool) (s : State) :
    load data offset p s =
      .ok { s with mem := s.mem.writeBytes offset data, pc := if p then BitVec.ofNat 16 offset else s.pc } := by
  unfold load
  rw [if_neg (Nat.not_lt.2 h)]
  cases p <;> rfl

/-- Settles O50: the check comes before the copy, and the copy is a run of bytes written from the offset on. -/
theorem loadCopiesOrFails : Obligations.LoadCopiesOrFails := by
  unfold Obligations.LoadCopiesOrFails
  refine ⟨fun s data offset p h => load_of_outside h p s, fun s data offset p h => ?_, fun s offset h => ?_⟩
  · refine ⟨_, load_of_inside h p s, fun i hi => ?_, fun a ha => Memory.read_writeBytes_outside _ _ _ ha⟩
    rw [Memory.read_writeBytes, if_pos (by omega), Nat.add_sub_cancel_left]
    exact (List.getElem_eq_getD 0).symm
  · exact load_of_inside (data := []) h false s

/-- Settles O7: the range of the two bytes at P decides between the word and the first address outside. -/
theorem fetchReadsBigEndianOrFaults : Obligations.FetchReadsBigEndianOrFaults := by
  unfold Obligations.FetchReadsBigEndianOrFaults
  refine fun s => ⟨fun h => ⟨_, fetch_of_inside h, wordOfBytes_toNat _ _⟩, fun h => ?_, fun h => ?_⟩
  · have hout : 4096 < s.pc.toNat + 2 := by omega
    rw [fetch_of_outside hout, Nat.max_eq_left h]
  · have hout : 4096 < s.pc.toNat + 2 := by omega
    rw [fetch_of_outside hout, h]
    rfl

end Sys2Proof.Machine

/-! ## The words and their instructions (30_encoding R71 to R73) -/

namespace Sys2Proof

/-! ### The round trip -/

theorem decodeWord_encode (i : Instr) : decodeWord (encode i) = some i := by
  cases i with
  | cls => rfl
  | ret => rfl
  | _ => simp [encode, decodeWord, decode8, decodeE, decodeF]

theorem decode_two_eq_ok_iff {hi lo : Byte} {rest rest' : List Byte} {i : Instr} :
    decode (hi :: lo :: rest) = .ok (i, rest') ↔ decodeWord (wordOfBytes hi lo) = some i ∧ rest = rest' := by
  rw [decode_two]
  cases decodeWord (wordOfBytes hi lo) <;> simp

theorem decode_encodeBytes (i : Instr) (rest : List Byte) : decode (encodeBytes i ++ rest) = .ok (i, rest) :=
  decode_two_eq_ok_iff.2 ⟨by rw [wordOfBytes_split, decodeWord_encode], rfl⟩

/-- Settles O1: each field of an assembled word is the operand it was assembled from. -/
theorem decodeOfEncodeIsIdentity : Obligations.DecodeOfEncodeIsIdentity := by
  unfold Obligations.DecodeOfEncodeIsIdentity
  exact fun i rest => ⟨decodeWord_encode i, decode_encodeBytes i rest⟩

theorem wordFXYN_eq_self {w : Word} {f n : BitVec 4} (hf : fieldF w = f) (hn : fieldN w = n) :
    wordFXYN f (nibble (fieldX w)) (nibble (fieldY w)) n = w := hf ▸ hn ▸ wordFXYN_fields w

theorem wordFXNN_eq_self {w : Word} {f : BitVec 4} {nn : Byte} (hf : fieldF w = f) (hnn : fieldNN w = nn) :
    wordFXNN f (nibble (fieldX w)) nn = w := hf ▸ hnn ▸ wordFXNN_fields w

theorem wordFNNN_eq_self {w : Word} {f : BitVec 4} (hf : fieldF w = f) : wordFNNN f (fieldNNN w) = w :=
  hf ▸ wordFNNN_fields w

/-- The decoder's outcome `o` is no instruction, or the instruction whose word is w. -/
def ReadsWord (w : Word) (o : Option Instr) : Prop := ∀ i, o = some i → encode i = w

theorem readsWord_none (w : Word) : ReadsWord w none := fun _ h => nomatch h

theorem readsWord_some {w : Word} {i : Instr} (h : encode i = w) : ReadsWord w (some i) := fun _ hi =>
  Option.some.inj hi ▸ h

/-- One test of a decoder's chain. -/
theorem readsWord_ite {w : Word} {p : Prop} [Decidable p] {o o' : Option Instr} (h : p → ReadsWord w o)
    (h' : ¬p → ReadsWord w o') : ReadsWord w (if p then o else o') := iteInduction h h'

theorem readsWord_decode0 (w : Word) : ReadsWord w (decode0 w) :=
  readsWord_ite (fun hcls => readsWord_some hcls.symm) fun _ =>
    readsWord_ite (fun hret => readsWord_some hret.symm) fun _ => readsWord_none w

theorem readsWord_decode8 {w : Word} (hf : fieldF w = 0x8#4) : ReadsWord w (decode8 w) := by
  unfold decode8
  iterate 9 refine readsWord_ite (fun hn => readsWord_some (wordFXYN_eq_self hf hn)) fun _ => ?_
  exact readsWord_none w

theorem readsWord_decodeE {w : Word} (hf : fieldF w = 0xE#4) : ReadsWord w (decodeE w) := by
  unfold decodeE
  iterate 2 refine readsWord_ite (fun hnn => readsWord_some (wordFXNN_eq_self hf hnn)) fun _ => ?_
  exact readsWord_none w

theorem readsWord_decodeF {w : Word} (hf : fieldF w = 0xF#4) : ReadsWord w (decodeF w) := by
  unfold decodeF
  iterate 9 refine readsWord_ite (fun hnn => readsWord_some (wordFXNN_eq_self hf hnn)) fun _ => ?_
  exact readsWord_none w

theorem readsWord_decodeWord (w : Word) : ReadsWord w (decodeWord w) := by
  unfold decodeWord
  refine readsWord_ite (fun _ => readsWord_decode0 w) fun h0 => ?_
  refine readsWord_ite (fun hf => readsWord_some (wordFNNN_eq_self hf)) fun h1 => ?_
  refine readsWord_ite (fun hf => readsWord_some (wordFNNN_eq_self hf)) fun h2 => ?_
  refine readsWord_ite (fun hf => readsWord_some (wordFXNN_eq_self hf rfl)) fun h3 => ?_
  refine readsWord_ite (fun hf => readsWord_some (wordFXNN_eq_self hf rfl)) fun h4 => ?_
  refine readsWord_ite (fun hf => readsWord_ite (fun hn => readsWord_some (wordFXYN_eq_self hf hn))
    fun _ => readsWord_none w) fun h5 => ?_
  refine readsWord_ite (fun hf => readsWord_some (wordFXNN_eq_self hf rfl)) fun h6 => ?_
  refine readsWord_ite (fun hf => readsWord_some (wordFXNN_eq_self hf rfl)) fun h7 => ?_
  refine readsWord_ite readsWord_decode8 fun h8 => ?_
  refine readsWord_ite (fun hf => readsWord_ite (fun hn => readsWord_some (wordFXYN_eq_self hf hn))
    fun _ => readsWord_none w) fun h9 => ?_
  refine readsWord_ite (fun hf => readsWord_some (wordFNNN_eq_self hf)) fun hA => ?_
  refine readsWord_ite (fun hf => readsWord_some (wordFNNN_eq_self hf)) fun hB => ?_
  refine readsWord_ite (fun hf => readsWord_some (wordFXNN_eq_self hf rfl)) fun hC => ?_
  refine readsWord_ite (fun hf => readsWord_some (wordFXYN_eq_self hf rfl)) fun hD => ?_
  refine readsWord_ite readsWord_decodeE fun hE => ?_
  have hF : fieldF w = 0xF#4 := by bv_omega
  exact readsWord_decodeF hF

/-- Settles O2: a word is assembled again from the fields its instruction was read from. -/
theorem encodeOfDecodeIsIdentity : Obligations.EncodeOfDecodeIsIdentity := by
  unfold Obligations.EncodeOfDecodeIsIdentity
  exact readsWord_decodeWord

/-- Settles O6. -/
theorem sampleWordsDecode : Obligations.SampleWordsDecode := by
  unfold Obligations.SampleWordsDecode
  decide

/-! ### The words that do not decode -/

theorem decode0_eq_none_iff {w : Word} : decode0 w = none ↔ w ≠ 0x00E0#16 ∧ w ≠ 0x00EE#16 := by
  simp [decode0, ite_some_eq_none_iff]

theorem decode8_eq_none_iff {w : Word} :
    decode8 w = none ↔ fieldN w ∈ [0x8#4, 0x9#4, 0xA#4, 0xB#4, 0xC#4, 0xD#4, 0xF#4] := by
  simp only [decode8, ite_some_eq_none_iff]
  generalize fieldN w = n
  revert n
  decide

theorem decodeE_eq_none_iff {w : Word} : decodeE w = none ↔ fieldNN w ∉ [0x9E#8, 0xA1#8] := by
  simp [decodeE, ite_some_eq_none_iff]

theorem decodeF_eq_none_iff {w : Word} :
    decodeF w = none ↔ fieldNN w ∉ [0x07#8, 0x0A#8, 0x15#8, 0x18#8, 0x1E#8, 0x29#8, 0x33#8, 0x55#8, 0x65#8] := by
  simp [decodeF, ite_some_eq_none_iff]

theorem decodeWord_eq_none_iff {w : Word} :
    decodeWord w = none ↔
      (fieldF w = 0x0#4 ∧ w ≠ 0x00E0#16 ∧ w ≠ 0x00EE#16) ∨ (fieldF w = 0x5#4 ∧ fieldN w ≠ 0#4) ∨
      (fieldF w = 0x8#4 ∧ fieldN w ∈ [0x8#4, 0x9#4, 0xA#4, 0xB#4, 0xC#4, 0xD#4, 0xF#4]) ∨
      (fieldF w = 0x9#4 ∧ fieldN w ≠ 0#4) ∨ (fieldF w = 0xE#4 ∧ fieldNN w ∉ [0x9E#8, 0xA1#8]) ∨
      (fieldF w = 0xF#4 ∧
        fieldNN w ∉ [0x07#8, 0x0A#8, 0x15#8, 0x18#8, 0x1E#8, 0x29#8, 0x33#8, 0x55#8, 0x65#8]) := by
  rw [← decode0_eq_none_iff, ← decode8_eq_none_iff, ← decodeE_eq_none_iff, ← decodeF_eq_none_iff]
  refine ⟨decodeWord_eq_none_cases, ?_⟩
  rintro (⟨hf, hd⟩ | ⟨hf, hd⟩ | ⟨hf, hd⟩ | ⟨hf, hd⟩ | ⟨hf, hd⟩ | ⟨hf, hd⟩) <;> simp [decodeWord, hf, hd]

/-- Settles O5: the families whose decoders can give none, and what each of those decoders refuses. -/
theorem invalidWordsAreThoseOfTheSpec : Obligations.InvalidWordsAreThoseOfTheSpec := by
  unfold Obligations.InvalidWordsAreThoseOfTheSpec
  exact fun w => decodeWord_eq_none_iff

/-! ### The opcode map -/

theorem OpcodeRow.covers_iff {r : OpcodeRow} {w : Word} : r.covers w = true ↔ w &&& r.mask = r.bits := beq_iff_eq

/-- Two rows that cover one word agree where both masks look. -/
theorem OpcodeRow.bits_and_mask_eq {r r' : OpcodeRow} {w : Word} (h : r.covers w = true) (h' : r'.covers w = true) :
    r.bits &&& r'.mask = r'.bits &&& r.mask := by
  rw [OpcodeRow.covers_iff] at h h'
  rw [← h, ← h', BitVec.and_assoc, BitVec.and_assoc, BitVec.and_comm r.mask]

/-- Settles O4: any two rows differ in a bit that both masks look at. -/
theorem opcodeRowsDoNotOverlap : Obligations.OpcodeRowsDoNotOverlap := by
  unfold Obligations.OpcodeRowsDoNotOverlap
  have hdiffer : opcodeTable.Pairwise (fun r r' => r.bits &&& r'.mask ≠ r'.bits &&& r.mask) := by decide
  exact hdiffer.imp fun hne w ⟨h, h'⟩ => hne (OpcodeRow.bits_and_mask_eq h h')

theorem encode_covered (i : Instr) : ∃ r ∈ opcodeTable, r.mnemonic = i.mnemonic ∧ r.covers (encode i) = true := by
  cases i with
  | cls => exact Laws.EncodesItsRow.cls
  | ret => exact Laws.EncodesItsRow.ret
  | jp nnn => exact Laws.EncodesItsRow.jp nnn
  | call nnn => exact Laws.EncodesItsRow.call nnn
  | seImm x nn => exact Laws.EncodesItsRow.seImm x nn
  | sneImm x nn => exact Laws.EncodesItsRow.sneImm x nn
  | seReg x y => exact Laws.EncodesItsRow.seReg x y
  | ldImm x nn => exact Laws.EncodesItsRow.ldImm x nn
  | addImm x nn => exact Laws.EncodesItsRow.addImm x nn
  | ldReg x y => exact Laws.EncodesItsRow.ldReg x y
  | or x y => exact Laws.EncodesItsRow.or x y
  | and x y => exact Laws.EncodesItsRow.and x y
  | xor x y => exact Laws.EncodesItsRow.xor x y
  | addReg x y => exact Laws.EncodesItsRow.addReg x y
  | sub x y => exact Laws.EncodesItsRow.sub x y
  | shr x y => exact Laws.EncodesItsRow.shr x y
  | subn x y => exact Laws.EncodesItsRow.subn x y
  | shl x y => exact Laws.EncodesItsRow.shl x y
  | sneReg x y => exact Laws.EncodesItsRow.sneReg x y
  | ldI nnn => exact Laws.EncodesItsRow.ldI nnn
  | jpV0 nnn => exact Laws.EncodesItsRow.jpV0 nnn
  | rnd x nn => exact Laws.EncodesItsRow.rnd x nn
  | drw x y n => exact Laws.EncodesItsRow.drw x y n
  | skp x => exact Laws.EncodesItsRow.skp x
  | sknp x => exact Laws.EncodesItsRow.sknp x
  | ldVDt x => exact Laws.EncodesItsRow.ldVDt x
  | ldVK x => exact Laws.EncodesItsRow.ldVK x
  | ldDtV x => exact Laws.EncodesItsRow.ldDtV x
  | ldStV x => exact Laws.EncodesItsRow.ldStV x
  | ldIV x => exact Laws.EncodesItsRow.ldIV x
  | ldF x => exact Laws.EncodesItsRow.ldF x
  | ldB x => exact Laws.EncodesItsRow.ldB x
  | ldMemV x => exact Laws.EncodesItsRow.ldMemV x
  | ldVMem x => exact Laws.EncodesItsRow.ldVMem x

/-- A row fixes each field of its words that its mask covers whole. -/
theorem OpcodeRow.field_eq_of_covers {r : OpcodeRow} {w : Word} {start len : Nat} (h : r.covers w = true)
    (hmask : r.mask.extractLsb' start len = BitVec.allOnes len) :
    r.bits.extractLsb' start len = w.extractLsb' start len := by
  rw [← OpcodeRow.covers_iff.1 h, BitVec.extractLsb'_and, hmask, BitVec.and_allOnes]

/-- Each row's mask covers f whole, and the field its family dispatches on (30_encoding R70, R72). -/
theorem opcodeTable_masks : ∀ r ∈ opcodeTable,
    fieldF r.mask = BitVec.allOnes 4 ∧ (fieldF r.bits = 0x0#4 → r.mask = BitVec.allOnes 16) ∧
      (fieldF r.bits ∈ [0x5#4, 0x8#4, 0x9#4] → fieldN r.mask = BitVec.allOnes 4) ∧
      (fieldF r.bits ∈ [0xE#4, 0xF#4] → fieldNN r.mask = BitVec.allOnes 8) := by decide

theorem opcodeTable_bits_decode : ∀ r ∈ opcodeTable, decodeWord r.bits ≠ none := by decide

/-- A row's bits and its words agree in all that the decoder refuses a word for. -/
theorem decodeWord_bits_eq_none_of_covers {r : OpcodeRow} {w : Word} (hr : r ∈ opcodeTable) (hcov : r.covers w = true)
    (h : decodeWord w = none) : decodeWord r.bits = none := by
  obtain ⟨hmaskF, hmask0, hmaskN, hmaskNN⟩ := opcodeTable_masks r hr
  have hF : fieldF r.bits = fieldF w := OpcodeRow.field_eq_of_covers hcov hmaskF
  have h0 : fieldF w = 0x0#4 → r.bits = w := fun hf => by
    rw [← OpcodeRow.covers_iff.1 hcov, hmask0 (hF.trans hf), BitVec.and_allOnes]
  have hN : fieldF w ∈ [0x5#4, 0x8#4, 0x9#4] → fieldN r.bits = fieldN w := fun hf =>
    OpcodeRow.field_eq_of_covers hcov (hmaskN (hF ▸ hf))
  have hNN : fieldF w ∈ [0xE#4, 0xF#4] → fieldNN r.bits = fieldNN w := fun hf =>
    OpcodeRow.field_eq_of_covers hcov (hmaskNN (hF ▸ hf))
  rw [decodeWord_eq_none_iff] at h ⊢
  rw [hF]
  rcases h with ⟨hf, hd⟩ | ⟨hf, hd⟩ | ⟨hf, hd⟩ | ⟨hf, hd⟩ | ⟨hf, hd⟩ | ⟨hf, hd⟩
  · exact .inl ⟨hf, by rwa [h0 hf]⟩
  · exact .inr (.inl ⟨hf, by rwa [hN (by simp [hf])]⟩)
  · exact .inr (.inr (.inl ⟨hf, by rwa [hN (by simp [hf])]⟩))
  · exact .inr (.inr (.inr (.inl ⟨hf, by rwa [hN (by simp [hf])]⟩)))
  · exact .inr (.inr (.inr (.inr (.inl ⟨hf, by rwa [hNN (by simp [hf])]⟩))))
  · exact .inr (.inr (.inr (.inr (.inr ⟨hf, by rwa [hNN (by simp [hf])]⟩))))

/-- Settles O3: a word that decodes is its instruction's word, which that instruction's row covers; a row that covered
a word that does not decode would have bits that do not decode. -/
theorem decodeFollowsOpcodeMap : Obligations.DecodeFollowsOpcodeMap := by
  unfold Obligations.DecodeFollowsOpcodeMap
  intro w
  cases h : decodeWord w with
  | some i =>
    obtain rfl := readsWord_decodeWord w i h
    exact encode_covered i
  | none =>
    intro r hr
    rw [← Bool.not_eq_true]
    exact fun hcov => opcodeTable_bits_decode r hr (decodeWord_bits_eq_none_of_covers hr hcov h)

end Sys2Proof

namespace Sys2Proof.Machine

/-! ## The step of a decoded instruction (30_encoding R65) -/

theorem step_of_schedule_nil {s : State} (h : s.schedule = []) : step s = runNext s := by
  simp only [step, cycle, h]

theorem step_of_schedule_cons {s : State} {e : Event} {rest : List Event} (h : s.schedule = e :: rest) :
    step s = act e (s.setSchedule rest) := by
  simp only [step, cycle, h]

theorem runNext_eq_exec {s : State} {i : Instr} (hrun : s.mode = .running) (hin : s.pc.toNat + 2 ≤ memSize)
    (hd : decode (s.mem.readBytes s.pc.toNat 2) = .ok (i, [])) : runNext s = exec i s := by
  obtain ⟨hword, -⟩ := decode_two_eq_ok_iff.1 hd
  simp only [runNext, hrun, engineStep, fetch_of_inside hin, hword]

/-- Settles O8: a step with nothing scheduled, or with a call of the step port first, is the step port's, whose fetch
reads the two bytes. -/
theorem stepRunsDecodedInstruction : Obligations.StepRunsDecodedInstruction := by
  unfold Obligations.StepRunsDecodedInstruction
  refine fun s i hrun hin hd => ⟨fun hs => ?_, fun rest hs => ?_⟩
  · rw [step_of_schedule_nil hs, runNext_eq_exec hrun hin hd]
  · rw [step_of_schedule_cons hs]
    exact runNext_eq_exec (s := s.setSchedule rest) hrun hin hd

end Sys2Proof.Machine

/-! ## Control flow (41_control_flow R78 to R83) -/

namespace Sys2Proof

theorem decodeWord_eq_some_iff {w : Word} {i : Instr} : decodeWord w = some i ↔ w = encode i :=
  ⟨fun h => (readsWord_decodeWord w i h).symm, fun h => h ▸ decodeWord_encode i⟩

theorem decodeWord_family1 {w : Word} (h : fieldF w = 0x1#4) : decodeWord w = some (.jp (fieldNNN w)) := by
  simp [decodeWord, h]

theorem decodeWord_family2 {w : Word} (h : fieldF w = 0x2#4) : decodeWord w = some (.call (fieldNNN w)) := by
  simp [decodeWord, h]

end Sys2Proof

namespace Sys2Proof.Machine

/-! ### CALL and RET, case by case -/

theorem exec_call_of_room {s : State} (h : s.stack.length < stackDepth) (nnn : Addr12) :
    exec (.call nnn) s = .next { s with stack := s.stack ++ [s.pc + 2], pc := nnn.setWidth 16 } :=
  if_neg (Nat.not_le.2 h)

theorem exec_call_of_full {s : State} (h : stackDepth ≤ s.stack.length) (nnn : Addr12) :
    exec (.call nnn) s = .next (s.haltWith .stackOverflow (some (encode (.call nnn)))) :=
  if_pos h

theorem exec_ret_of_append {s : State} {l : List Word} {a : Word} (h : s.stack = l ++ [a]) :
    exec .ret s = .next { s with stack := l, pc := a } := by
  have hdo : exec .ret s = .next (effectOf .ret s) := by simp [exec_eq, ownFault, h]
  rw [hdo]
  simp only [effectOf, h, List.dropLast_concat, List.getLast?_concat, Option.getD_some]
  rfl

theorem exec_ret_of_nil {s : State} (h : s.stack = []) :
    exec .ret s = .next (s.haltWith .stackUnderflow (some (encode .ret))) := by
  simp [exec_eq, ownFault, h]

/-! ### Calls one after the other (41_control_flow R81) -/

/-- Seventeen calls from an empty stack: state k + 1 is what the call from state k leaves. -/
def CallsFromEmpty (σ : Nat → State) (n : Nat → Addr12) : Prop :=
  (σ 0).stack = [] ∧ ∀ k ≤ stackDepth, exec (.call (n k)) (σ k) = .next (σ (k + 1))

theorem CallsFromEmpty.stack_length_and_mode {σ : Nat → State} {n : Nat → Addr12} (h : CallsFromEmpty σ n) {k : Nat}
    (hk : k ≤ stackDepth) : (σ k).stack.length = k ∧ (σ k).mode = (σ 0).mode := by
  obtain ⟨hempty, hcall⟩ := h
  induction k with
  | zero => exact ⟨by rw [hempty]; rfl, rfl⟩
  | succ k ih =>
    obtain ⟨hlen, hmode⟩ := ih (by omega)
    have hnext := hcall k (by omega)
    rw [exec_call_of_room (by omega)] at hnext
    rw [← Host.Outcome.next.inj hnext]
    exact ⟨by simp [hlen], hmode⟩

theorem CallsFromEmpty.last_overflows {σ : Nat → State} {n : Nat → Addr12} (h : CallsFromEmpty σ n) :
    σ 17 = (σ 16).haltWith .stackOverflow (some (encode (.call (n 16)))) := by
  obtain ⟨hlen, -⟩ := h.stack_length_and_mode (le_refl stackDepth)
  obtain ⟨-, hcall⟩ := h
  have hnext := hcall 16 (le_refl stackDepth)
  rw [exec_call_of_full hlen.ge] at hnext
  exact (Host.Outcome.next.inj hnext).symm

/-- Settles O17: the number of entries decides between the push and the overflow; the chain is an induction over the
calls. -/
theorem callPushesOrOverflows : Obligations.CallPushesOrOverflows := by
  unfold Obligations.CallPushesOrOverflows
  refine ⟨fun s nnn h => exec_call_of_room h nnn, fun s nnn h => ⟨_, rfl, exec_call_of_full h.ge nnn⟩,
    fun σ n hempty hcall => ?_, fun w hf => decodeWord_family2 hf⟩
  have hcalls : CallsFromEmpty σ n := ⟨hempty, hcall⟩
  exact ⟨fun k hk => hcalls.stack_length_and_mode hk, _, rfl, hcalls.last_overflows⟩

/-- A call that leaves Running had room on the stack, and left P + 2 as its last entry. -/
theorem exec_call_running_stack {s t : State} {nnn : Addr12} (h : exec (.call nnn) s = .next t)
    (hrun : t.mode = .running) : t.stack = s.stack ++ [s.pc + 2] := by
  rcases Nat.lt_or_ge s.stack.length stackDepth with hroom | hfull
  · rw [exec_call_of_room hroom] at h
    rw [← Host.Outcome.next.inj h]
  · rw [exec_call_of_full hfull] at h
    rw [← Host.Outcome.next.inj h, State.haltWith_mode] at hrun
    cases hrun

/-- Settles O19: the entry that the call pushed is the one that the return pops. -/
theorem callThenRetResumesAfterCall : Obligations.CallThenRetResumesAfterCall := by
  unfold Obligations.CallThenRetResumesAfterCall
  intro s t u nnn _ hcall hrun hstack
  exact exec_ret_of_append (hstack.trans (exec_call_running_stack hcall hrun))

/-! ### The single instructions -/

theorem exec_cls (s : State) : exec .cls s = .next { s with disp := Display.blank, pc := s.pc + 2 } := rfl

/-- Settles O14: both runs leave the blank display, and two advances are one by 4. -/
theorem clsClearsDisplay : Obligations.ClsClearsDisplay := by
  unfold Obligations.ClsClearsDisplay
  refine ⟨fun s => ⟨Display.blank, Display.pixel_blank, exec_cls s, ?_⟩, fun w => decodeWord_eq_some_iff⟩
  have hpc : s.pc + 2 + 2 = s.pc + 4 := add_two_two s.pc
  rw [exec_cls, hpc]

theorem fetch_of_pc_at_end {s : State} (h : s.pc = 4095 ∨ s.pc = 4096) : fetch s = .error (.outOfBounds 4096) := by
  have hend : memSize < s.pc.toNat + 2 ∧ max s.pc.toNat memSize = 4096 := by
    rcases h with hpc | hpc <;> (rw [hpc]; decide)
  obtain ⟨hout, hfirst⟩ := hend
  rw [fetch_of_outside hout, hfirst]

/-- Settles O15: the last entry of the stack, or its absence, decides. -/
theorem retPopsOrUnderflows : Obligations.RetPopsOrUnderflows := by
  unfold Obligations.RetPopsOrUnderflows
  exact ⟨fun s l t h => exec_ret_of_append h, fun s h => ⟨_, rfl, exec_ret_of_nil h⟩,
    fun s h => fetch_of_pc_at_end h, fun w => decodeWord_eq_some_iff⟩

theorem exec_jp (nnn : Addr12) (s : State) : exec (.jp nnn) s = .next { s with pc := nnn.setWidth 16 } := rfl

/-- Settles O16: the target is zero-extended, and from 0xFFF the second byte of the fetch is outside memory. -/
theorem jpSetsPc : Obligations.JpSetsPc := by
  unfold Obligations.JpSetsPc
  refine ⟨fun s nnn => exec_jp nnn s, fun s nnn h => ?_, fun s => fetch_of_pc_at_end (.inl rfl),
    fun w hf => decodeWord_family1 hf⟩
  rw [exec_jp, h]

/-- Bnnn's sum does not wrap: 0xFFF + 0xFF fits in 16 bits (41_control_flow R82). -/
theorem zextAddr_add_zextByte_toNat (nnn : Addr12) (b : Byte) :
    (zextAddr nnn + zextByte b).toNat = nnn.toNat + b.toNat := by
  have := nnn.isLt
  have := b.isLt
  rw [zextAddr_add_zextByte, BitVec.toNat_ofNat]
  omega

theorem exec_jpV0 (nnn : Addr12) (s : State) :
    exec (.jpV0 nnn) s = .next { s with pc := zextAddr nnn + zextByte (s.getV (jumpOffsetReg s.params nnn)) } := rfl

/-- Settles O18: the parameter selects the register whose value is added. -/
theorem jpV0AddsOffset : Obligations.JpV0AddsOffset := by
  unfold Obligations.JpV0AddsOffset
  refine fun s nnn => ⟨_, exec_jpV0 nnn s, fun hq => ?_, fun hq => ?_⟩
  · rw [zextAddr_add_zextByte_toNat, jumpOffsetReg, if_neg (by simp [hq])]
  · rw [zextAddr_add_zextByte_toNat, jumpOffsetReg, if_pos hq]

end Sys2Proof.Machine

/-! ## Conditional skips and immediate loads (42_skip_immediate R84 to R90) -/

namespace Sys2Proof

theorem decodeWord_family3 {w : Word} (h : fieldF w = 0x3#4) :
    decodeWord w = some (.seImm (fieldX w) (fieldNN w)) := by
  simp [decodeWord, h]

theorem decodeWord_family4 {w : Word} (h : fieldF w = 0x4#4) :
    decodeWord w = some (.sneImm (fieldX w) (fieldNN w)) := by
  simp [decodeWord, h]

theorem decodeWord_family5_eq_none {w : Word} (hf : fieldF w = 0x5#4) (hn : fieldN w ≠ 0#4) : decodeWord w = none :=
  decodeWord_eq_none_iff.2 (.inr (.inl ⟨hf, hn⟩))

theorem decodeWord_family6 {w : Word} (h : fieldF w = 0x6#4) :
    decodeWord w = some (.ldImm (fieldX w) (fieldNN w)) := by
  simp [decodeWord, h]

theorem decodeWord_family7 {w : Word} (h : fieldF w = 0x7#4) :
    decodeWord w = some (.addImm (fieldX w) (fieldNN w)) := by
  simp [decodeWord, h]

theorem decodeWord_family9_eq_none {w : Word} (hf : fieldF w = 0x9#4) (hn : fieldN w ≠ 0#4) : decodeWord w = none :=
  decodeWord_eq_none_iff.2 (.inr (.inr (.inr (.inl ⟨hf, hn⟩))))

end Sys2Proof

namespace Sys2Proof.Machine

/-! ### The skip after the fetch's advance (42_skip_immediate R90) -/

theorem State.skipIf_advance_of_true {s : State} {taken : Bool} (h : taken = true) :
    s.advance.skipIf taken = { s with pc := s.pc + 4 } := by
  have hpc : s.pc + 2 + 2 = s.pc + 4 := add_two_two s.pc
  rw [h, ← hpc]
  rfl

theorem State.skipIf_advance_of_false {s : State} {taken : Bool} (h : taken = false) :
    s.advance.skipIf taken = { s with pc := s.pc + 2 } := by
  rw [h]
  rfl

/-- A skip on equality, over the operands that the two skip-if-equal instructions compare. -/
theorem State.skipIf_advance_beq (s : State) (a b : Byte) :
    s.advance.skipIf (a == b) = { s with pc := if a = b then s.pc + 4 else s.pc + 2 } := by
  by_cases h : a = b
  · rw [State.skipIf_advance_of_true (beq_iff_eq.2 h), if_pos h]
  · rw [State.skipIf_advance_of_false (beq_eq_false_iff_ne.2 h), if_neg h]

/-- The exact negation of the skip on equality (42_skip_immediate R85, R87). -/
theorem State.skipIf_advance_bne (s : State) (a b : Byte) :
    s.advance.skipIf (a != b) = { s with pc := if a = b then s.pc + 2 else s.pc + 4 } := by
  by_cases h : a = b
  · rw [State.skipIf_advance_of_false (bne_eq_false_iff_eq.2 h), if_pos h]
  · rw [State.skipIf_advance_of_true (bne_iff_ne.2 h), if_neg h]

/-! ### The single instructions -/

theorem exec_seImm (x : Reg) (nn : Byte) (s : State) :
    exec (.seImm x nn) s = .next { s with pc := if s.getV x = nn then s.pc + 4 else s.pc + 2 } :=
  congrArg Host.Outcome.next (State.skipIf_advance_beq s (s.getV x) nn)

theorem exec_sneImm (x : Reg) (nn : Byte) (s : State) :
    exec (.sneImm x nn) s = .next { s with pc := if s.getV x = nn then s.pc + 2 else s.pc + 4 } :=
  congrArg Host.Outcome.next (State.skipIf_advance_bne s (s.getV x) nn)

/-- Settles O20. -/
theorem skipOnImmediate : Obligations.SkipOnImmediate := by
  unfold Obligations.SkipOnImmediate
  exact ⟨fun s x nn => ⟨exec_seImm x nn s, exec_sneImm x nn s⟩,
    fun w => ⟨fun hf => decodeWord_family3 hf, fun hf => decodeWord_family4 hf⟩⟩

theorem exec_seReg (x y : Reg) (s : State) :
    exec (.seReg x y) s = .next { s with pc := if s.getV x = s.getV y then s.pc + 4 else s.pc + 2 } :=
  congrArg Host.Outcome.next (State.skipIf_advance_beq s (s.getV x) (s.getV y))

theorem exec_sneReg (x y : Reg) (s : State) :
    exec (.sneReg x y) s = .next { s with pc := if s.getV x = s.getV y then s.pc + 2 else s.pc + 4 } :=
  congrArg Host.Outcome.next (State.skipIf_advance_bne s (s.getV x) (s.getV y))

/-- Settles O21: with x = y the compared values are one value; a sub-opcode n other than 0 is refused by the decoder of
its family. -/
theorem skipOnRegisters : Obligations.SkipOnRegisters := by
  unfold Obligations.SkipOnRegisters
  refine ⟨fun s x y => ⟨exec_seReg x y s, exec_sneReg x y s, ?_, ?_⟩, fun w hf hn => ?_⟩
  · rw [exec_seReg, if_pos rfl]
  · rw [exec_sneReg, if_pos rfl]
  · rcases hf with hf | hf
    · exact decodeWord_family5_eq_none hf hn
    · exact decodeWord_family9_eq_none hf hn

theorem exec_ldImm (x : Reg) (nn : Byte) (s : State) :
    exec (.ldImm x nn) s = .next { s with v := s.v.set x.val nn, pc := s.pc + 2 } := rfl

theorem exec_addImm (x : Reg) (nn : Byte) (s : State) :
    exec (.addImm x nn) s = .next { s with v := s.v.set x.val (s.getV x + nn), pc := s.pc + 2 } := rfl

/-- The sum of two bytes is the exact sum modulo 256 (42_skip_immediate R89). -/
theorem byte_add_eq_ofNat_mod (a b : Byte) : a + b = BitVec.ofNat 8 ((a.toNat + b.toNat) % 256) := by
  apply BitVec.eq_of_toNat_eq
  rw [BitVec.toNat_add, BitVec.toNat_ofNat, Nat.mod_mod]

/-- Settles O22: both write V[x] alone, and 7xnn writes the sum of two bytes. -/
theorem loadAndAddImmediate : Obligations.LoadAndAddImmediate := by
  unfold Obligations.LoadAndAddImmediate
  refine ⟨fun s x nn => ⟨exec_ldImm x nn s, ?_⟩,
    fun w => ⟨fun hf => decodeWord_family6 hf, fun hf => decodeWord_family7 hf⟩⟩
  rw [exec_addImm, byte_add_eq_ofNat_mod]

end Sys2Proof.Machine

/-! ## Invalid words (30_encoding R73, 43_alu R101) -/

namespace Sys2Proof

/-- The sub-opcodes that family 8 refuses are all but its nine (30_encoding R73, third row). -/
theorem not_mem_alu_subops_iff (n : BitVec 4) :
    n ∉ [0#4, 1#4, 2#4, 3#4, 4#4, 5#4, 6#4, 7#4, 14#4] ↔ n ∈ [0x8#4, 0x9#4, 0xA#4, 0xB#4, 0xC#4, 0xD#4, 0xF#4] := by
  revert n
  decide

theorem wellFormed0_eq_false_iff {w : Word} :
    wellFormed0 w = false ↔ fieldF w = 0x0#4 ∧ w ≠ 0x00E0#16 ∧ w ≠ 0x00EE#16 := by
  simp [wellFormed0, fieldF, and_assoc]

theorem wellFormed5_eq_false_iff {w : Word} : wellFormed5 w = false ↔ fieldF w = 0x5#4 ∧ fieldN w ≠ 0#4 := by
  simp [wellFormed5, fieldF, fieldN]

theorem wellFormed8_eq_false_iff {w : Word} :
    wellFormed8 w = false ↔
      fieldF w = 0x8#4 ∧ fieldN w ∈ [0x8#4, 0x9#4, 0xA#4, 0xB#4, 0xC#4, 0xD#4, 0xF#4] := by
  rw [← not_mem_alu_subops_iff]
  simp [wellFormed8, fieldF, fieldN]

theorem wellFormed9_eq_false_iff {w : Word} : wellFormed9 w = false ↔ fieldF w = 0x9#4 ∧ fieldN w ≠ 0#4 := by
  simp [wellFormed9, fieldF, fieldN]

theorem wellFormedE_eq_false_iff {w : Word} :
    wellFormedE w = false ↔ fieldF w = 0xE#4 ∧ fieldNN w ∉ [0x9E#8, 0xA1#8] := by
  simp [wellFormedE, fieldF, fieldNN]

theorem wellFormedF_eq_false_iff {w : Word} :
    wellFormedF w = false ↔
      fieldF w = 0xF#4 ∧
        fieldNN w ∉ [0x07#8, 0x0A#8, 0x15#8, 0x18#8, 0x1E#8, 0x29#8, 0x33#8, 0x55#8, 0x65#8] := by
  simp [wellFormedF, fieldF, fieldNN]

/-- A word that is not well-formed fails the check of one family, and that family's decoder refuses it. -/
theorem wellFormed_eq_false_iff {w : Word} : wellFormed w = false ↔ decodeWord w = none := by
  rw [decodeWord_eq_none_iff, ← wellFormed0_eq_false_iff, ← wellFormed5_eq_false_iff, ← wellFormed8_eq_false_iff,
    ← wellFormed9_eq_false_iff, ← wellFormedE_eq_false_iff, ← wellFormedF_eq_false_iff]
  simp only [wellFormed, Bool.and_eq_false_iff, or_assoc]

theorem decodeWord_family8_eq_none {w : Word} (hf : fieldF w = 0x8#4)
    (hn : fieldN w ∈ [0x8#4, 0x9#4, 0xA#4, 0xB#4, 0xC#4, 0xD#4, 0xF#4]) : decodeWord w = none :=
  decodeWord_eq_none_iff.2 (.inr (.inr (.inl ⟨hf, hn⟩)))

end Sys2Proof

namespace Sys2Proof.Machine

theorem runNext_of_invalid {s : State} {w : Word} (hrun : s.mode = .running) (hw : fetch s = .ok w)
    (hd : decodeWord w = none) : runNext s = .next (s.haltWith (.invalidInstruction w) (some w)) := by
  simp only [runNext, hrun, engineStep, hw, hd, raise]

/-- Settles O10: the decoder refuses the word in both cases, and fault entry sets the mode alone. -/
theorem invalidInstructionHalts : Obligations.InvalidInstructionHalts := by
  unfold Obligations.InvalidInstructionHalts
  intro s w hrun hw hinvalid
  have hd : decodeWord w = none := by
    rcases hinvalid with hwf | ⟨hf, hn⟩
    · exact wellFormed_eq_false_iff.1 hwf
    · exact decodeWord_family8_eq_none hf hn
  exact ⟨_, rfl, rfl, runNext_of_invalid hrun hw hd⟩

end Sys2Proof.Machine

/-! ## Arithmetic and logic (43_alu R91 to R100) -/

namespace Sys2Proof.Machine

/-! ### Copy and bitwise operations -/

theorem exec_ldReg (x y : Reg) (s : State) :
    exec (.ldReg x y) s = .next { s with v := s.v.set x.val (s.getV y), pc := s.pc + 2 } := rfl

theorem exec_or (x y : Reg) (s : State) :
    exec (.or x y) s = .next { s with v := s.v.set x.val (s.getV x ||| s.getV y), pc := s.pc + 2 } := rfl

theorem exec_and (x y : Reg) (s : State) :
    exec (.and x y) s = .next { s with v := s.v.set x.val (s.getV x &&& s.getV y), pc := s.pc + 2 } := rfl

theorem exec_xor (x y : Reg) (s : State) :
    exec (.xor x y) s = .next { s with v := s.v.set x.val (s.getV x ^^^ s.getV y), pc := s.pc + 2 } := rfl

/-- A word of family 8 decodes to the instruction that is encoded by its x, y and n. -/
theorem decodeWord_family8 {w : Word} {n : BitVec 4} {i : Instr} (hf : fieldF w = 0x8#4) (hn : fieldN w = n)
    (hi : encode i = wordFXYN 0x8#4 (nibble (fieldX w)) (nibble (fieldY w)) n) : decodeWord w = some i :=
  decodeWord_eq_some_iff.2 (hi.trans (wordFXYN_eq_self hf hn)).symm

/-- Settles O23: the results are the library's bitwise operations on bytes, read bit by bit. -/
theorem copyAndBitwise : Obligations.CopyAndBitwise := by
  unfold Obligations.CopyAndBitwise
  refine ⟨fun s x y => exec_ldReg x y s, fun s x y => ⟨_, _, _, exec_or x y s, exec_and x y s, exec_xor x y s, ?_⟩,
    fun w hf => ⟨fun hn => decodeWord_family8 hf hn rfl, fun hn => decodeWord_family8 hf hn rfl,
      fun hn => decodeWord_family8 hf hn rfl, fun hn => decodeWord_family8 hf hn rfl⟩⟩
  exact fun k _ => ⟨BitVec.getLsbD_or, BitVec.getLsbD_and, BitVec.getLsbD_xor⟩

/-! ### WriteRF in its two orders (43_alu R91) -/

theorem State.advance_writeRF_of_flagLast {s : State} (h : s.params.flagOrder = .flagLast) (x : Reg) (r : Byte)
    (f : Bool) :
    s.advance.writeRF x r f = { s with v := (s.v.set x.val r).set 15 (flagByte f), pc := s.pc + 2 } := by
  simp only [State.writeRF, State.advance_params, h]
  rfl

theorem State.advance_writeRF_of_flagFirst {s : State} (h : s.params.flagOrder = .flagFirst) (x : Reg) (r : Byte)
    (f : Bool) :
    s.advance.writeRF x r f = { s with v := (s.v.set 15 (flagByte f)).set x.val r, pc := s.pc + 2 } := by
  simp only [State.writeRF, State.advance_params, h]
  rfl

/-- An instruction whose effect is a WriteRF after the fetch's advance, with FLAG_ORDER flag_last. -/
theorem exec_of_flagLast {i : Instr} {s : State} {x : Reg} {r : Byte} {f : Bool}
    (h : s.params.flagOrder = .flagLast) (hi : exec i s = .next (s.advance.writeRF x r f)) :
    exec i s = .next { s with v := (s.v.set x.val r).set 15 (flagByte f), pc := s.pc + 2 } := by
  rw [hi, State.advance_writeRF_of_flagLast h]

/-- The same with FLAG_ORDER flag_first. -/
theorem exec_of_flagFirst {i : Instr} {s : State} {x : Reg} {r : Byte} {f : Bool}
    (h : s.params.flagOrder = .flagFirst) (hi : exec i s = .next (s.advance.writeRF x r f)) :
    exec i s = .next { s with v := (s.v.set 15 (flagByte f)).set x.val r, pc := s.pc + 2 } := by
  rw [hi, State.advance_writeRF_of_flagFirst h]

theorem exec_addReg (x y : Reg) (s : State) :
    exec (.addReg x y) s =
      .next (s.advance.writeRF x (s.getV x + s.getV y) (carryOut (s.getV x) (s.getV y))) := rfl

theorem exec_sub (x y : Reg) (s : State) :
    exec (.sub x y) s = .next (s.advance.writeRF x (s.getV x - s.getV y) (noBorrow (s.getV x) (s.getV y))) := rfl

theorem exec_subn (x y : Reg) (s : State) :
    exec (.subn x y) s = .next (s.advance.writeRF x (s.getV y - s.getV x) (noBorrow (s.getV y) (s.getV x))) := rfl

theorem exec_shr (x y : Reg) (s : State) :
    exec (.shr x y) s =
      .next (s.advance.writeRF x (shiftee s x y >>> 1) (shiftedOutLow (shiftee s x y))) := rfl

theorem exec_shl (x y : Reg) (s : State) :
    exec (.shl x y) s =
      .next (s.advance.writeRF x (shiftee s x y <<< 1) (shiftedOutHigh (shiftee s x y))) := rfl

/-! ### Results and flags as numbers -/

theorem flagByte_carryOut_toNat (a b : Byte) :
    (flagByte (carryOut a b)).toNat = if 255 < a.toNat + b.toNat then 1 else 0 := by
  simp only [flagByte_toNat, carryOut_iff]

theorem flagByte_noBorrow_toNat (a b : Byte) :
    (flagByte (noBorrow a b)).toNat = if b.toNat ≤ a.toNat then 1 else 0 := by
  simp only [flagByte_toNat, noBorrow_iff]

/-- The difference of two bytes is the exact difference modulo 256 (43_alu R97, R98). -/
theorem byte_sub_toNat (a b : Byte) : ((a - b).toNat : Int) = (a.toNat - b.toNat : Int) % 256 := by
  have := b.isLt
  rw [BitVec.toNat_sub]
  omega

theorem byte_shiftRight_one_toNat (a : Byte) : (a >>> 1).toNat = a.toNat / 2 := by
  rw [BitVec.toNat_ushiftRight, Nat.shiftRight_eq_div_pow, Nat.pow_one]

theorem byte_shiftLeft_one_toNat (a : Byte) : (a <<< 1).toNat = a.toNat * 2 % 256 := by
  rw [BitVec.toNat_shiftLeft, Nat.shiftLeft_eq, Nat.pow_one]

/-! ### The flag-setting instructions -/

/-- Settles O24. -/
theorem addRegWithCarry : Obligations.AddRegWithCarry := by
  unfold Obligations.AddRegWithCarry
  exact fun s x y => ⟨_, _, BitVec.toNat_add _ _, flagByte_carryOut_toNat _ _,
    fun h => exec_of_flagLast h (exec_addReg x y s), fun h => exec_of_flagFirst h (exec_addReg x y s)⟩

/-- Settles O25: the two instructions differ in which register is the minuend. -/
theorem subtractsWithNoBorrow : Obligations.SubtractsWithNoBorrow := by
  unfold Obligations.SubtractsWithNoBorrow
  exact fun s x y => ⟨_, _, _, _, byte_sub_toNat _ _, flagByte_noBorrow_toNat _ _, byte_sub_toNat _ _,
    flagByte_noBorrow_toNat _ _,
    fun h => ⟨exec_of_flagLast h (exec_sub x y s), exec_of_flagLast h (exec_subn x y s)⟩,
    fun h => ⟨exec_of_flagFirst h (exec_sub x y s), exec_of_flagFirst h (exec_subn x y s)⟩⟩

/-- Settles O26: `shiftee` is the value that the parameter selects. -/
theorem shiftsByOne : Obligations.ShiftsByOne := by
  unfold Obligations.ShiftsByOne
  exact fun s x y => ⟨shiftee s x y, _, _, _, _, rfl, byte_shiftRight_one_toNat _, shiftedOutLow_toNat _,
    byte_shiftLeft_one_toNat _, shiftedOutHigh_toNat _,
    fun h => ⟨exec_of_flagLast h (exec_shr x y s), exec_of_flagLast h (exec_shl x y s)⟩,
    fun h => ⟨exec_of_flagFirst h (exec_shr x y s), exec_of_flagFirst h (exec_shl x y s)⟩⟩

end Sys2Proof.Machine

/-! ## Index, random and draw (44_index_random_draw R103 to R107) -/

namespace Sys2Proof

theorem decodeWord_familyA {w : Word} (h : fieldF w = 0xA#4) : decodeWord w = some (.ldI (fieldNNN w)) := by
  simp [decodeWord, h]

end Sys2Proof

namespace Sys2Proof.Machine

/-! ### An access that leaves memory (60_exceptions R124) -/

theorem ownFault_of_access_outside {i : Instr} {s : State} (h0 : accessLength i ≠ 0)
    (h : memSize < s.ir.toNat + accessLength i) : ownFault i s = some (.outOfBounds (max s.ir.toNat memSize)) := by
  have hrange := congrArg (Option.map EngineFault.outOfBounds) (firstOutOfRange_eq_some.2 ⟨h0, h, rfl⟩)
  cases i with
  | ret => exact absurd rfl h0
  | call nnn => exact absurd rfl h0
  | _ => exact hrange

/-- Whatever an instruction would do with the bytes it accesses, the whole range is checked first. -/
theorem exec_of_access_outside {i : Instr} {s : State} (h0 : accessLength i ≠ 0)
    (h : memSize < s.ir.toNat + accessLength i) :
    exec i s = .next (s.haltWith (.outOfBounds (max s.ir.toNat memSize)) (some (encode i))) := by
  rw [exec_eq, ownFault_of_access_outside h0 h]

/-- Settles O31: the four instructions access n, 3, x + 1 and x + 1 bytes from ir. -/
theorem memoryInstructionsFaultOutOfRange : Obligations.MemoryInstructionsFaultOutOfRange := by
  unfold Obligations.MemoryInstructionsFaultOutOfRange
  refine fun s x y n => ⟨fun h0 h => ?_, fun h => ?_, fun h => ?_, fun h => ?_⟩
  · exact exec_of_access_outside (i := .drw x y n) h0 h
  · exact exec_of_access_outside (i := .ldB x) (Nat.succ_ne_zero 2) (Nat.lt_succ_of_le h)
  · exact exec_of_access_outside (i := .ldMemV x) (Nat.succ_ne_zero _) (Nat.lt_succ_of_le h)
  · exact exec_of_access_outside (i := .ldVMem x) (Nat.succ_ne_zero _) (Nat.lt_succ_of_le h)

/-! ### DRW -/

theorem exec_drw_of_inside {s : State} {n : Height} (h : n.val = 0 ∨ s.ir.toNat + n.val ≤ memSize) (x y : Reg) :
    exec (.drw x y n) s =
      .next { s with disp := (drawBlit s x y n).disp, v := s.v.set 15 (flagByte (drawBlit s x y n).hit),
                     pc := s.pc + 2 } :=
  completeInRange_of_inside h _ _ _

/-- A bit drawn is a 1 of the sprite's row i and column j, counted from the anchor (R105, R106). -/
theorem drawnBit_iff {s : State} {x y : Reg} {n : Height} {r : Fin 32} {c : Fin 64} :
    drawnBit s x y n r c = true ↔
      ∃ i j : Nat, i < n.val ∧ j < 8 ∧ r.val = (s.getV y).toNat % 32 + i ∧ c.val = (s.getV x).toNat % 64 + j ∧
        (s.mem.read (s.ir.toNat + i)).getLsbD (7 - j) = true := by
  have hlen : (spriteRows s n).length = n.val := Memory.readBytes_length _ _ _
  have hrow : ∀ i < n.val, (spriteRows s n).getD i 0 = s.mem.read (s.ir.toNat + i) :=
    fun i hi => Memory.readBytes_getD _ _ hi
  rw [drawnBit, ← mem_spritePlots_iff_spriteBit, mem_spritePlots, hlen]
  constructor
  · rintro ⟨i, hi, j, hj, hplot⟩
    obtain ⟨hr, hc, hbit⟩ := by simpa only [Prod.mk.injEq] using hplot
    exact ⟨i, j, hi, hj, hr, hc, by rw [← hrow i hi, ← hbit]⟩
  · rintro ⟨i, j, hi, hj, hr, hc, hbit⟩
    exact ⟨i, hi, j, hj, by rw [hrow i hi, hbit, hr, hc]; rfl⟩

theorem flagByte_eq_zero (f : Bool) : flagByte f = 0 ↔ f = false := by
  cases f <;> decide

/-- No hit is that every pixel with a drawn 1 was clear. -/
theorem drawBlit_hit_eq_false (s : State) (x y : Reg) (n : Height) :
    (drawBlit s x y n).hit = false ↔ ∀ r c, drawnBit s x y n r c = true → s.disp.pixel r c = false := by
  simp only [← Bool.not_eq_true, drawBlit_hit, not_exists, not_and]

/-- Settles O29: the blit, said pixel by pixel, toggles the pixels with a drawn 1 and hits on those that were set. -/
theorem drwTogglesPixelsAndReportsCollision : Obligations.DrwTogglesPixelsAndReportsCollision := by
  unfold Obligations.DrwTogglesPixelsAndReportsCollision
  refine fun s x y n h => ⟨_, _, drawnBit s x y n, exec_drw_of_inside h x y, fun r c => drawnBit_iff,
    drawBlit_pixel s x y n, fun hhit => ?_, fun hclear => ?_⟩
  · exact (flagByte_eq_one _).2 ((drawBlit_hit s x y n).2 hhit)
  · exact (flagByte_eq_zero _).2 ((drawBlit_hit_eq_false s x y n).2 hclear)

/-! ### The same sprite drawn twice (R107) -/

/-- A bit drawn depends on the anchor, ir and the sprite bytes alone. -/
theorem drawnBit_congr {s u : State} {x y x' y' : Reg} {n : Height} (hir : u.ir = s.ir)
    (hmem : ∀ i < n.val, u.mem.read (s.ir.toNat + i) = s.mem.read (s.ir.toNat + i))
    (hx : (u.getV x').toNat % 64 = (s.getV x).toNat % 64) (hy : (u.getV y').toNat % 32 = (s.getV y).toNat % 32) :
    drawnBit u x' y' n = drawnBit s x y n := by
  funext r c
  rw [Bool.eq_iff_iff, drawnBit_iff, drawnBit_iff, hir, hx, hy]
  refine exists_congr fun i => exists_congr fun j => and_congr_right fun hi => ?_
  rw [hmem i hi]

/-- The pixels that a draw changes are those with a drawn 1. -/
theorem drawBlit_pixel_ne_iff {s : State} {x y : Reg} {n : Height} {r : Fin 32} {c : Fin 64} :
    (drawBlit s x y n).disp.pixel r c ≠ s.disp.pixel r c ↔ drawnBit s x y n r c = true := by
  rw [drawBlit_pixel]
  cases drawnBit s x y n r c <;> simp

section SecondDraw

variable {s u : State} {x y x' y' : Reg} {n : Height} (hdisp : u.disp = (drawBlit s x y n).disp)
  (hbit : drawnBit u x' y' n = drawnBit s x y n)
include hdisp hbit

/-- Each pixel is toggled twice or not at all. -/
theorem drawBlit_drawBlit_disp : (drawBlit u x' y' n).disp = s.disp := by
  refine Display.ext_pixel fun r c => ?_
  rw [drawBlit_pixel, hbit, hdisp, drawBlit_pixel, Bool.xor_assoc, Bool.xor_self, Bool.xor_false]

/-- The second draw hits on the pixels that the first draw set. -/
theorem drawBlit_drawBlit_hit :
    (drawBlit u x' y' n).hit = true ↔
      ∃ r c, (drawBlit s x y n).disp.pixel r c ≠ s.disp.pixel r c ∧ s.disp.pixel r c = false := by
  rw [drawBlit_hit, hbit, hdisp]
  refine exists_congr fun r => exists_congr fun c => ?_
  rw [drawBlit_pixel_ne_iff]
  refine and_congr_right fun h1 => ?_
  rw [drawBlit_pixel, h1, Bool.xor_true, Bool.not_eq_true']

end SecondDraw

/-- Settles O30: the second draw toggles the pixels that the first toggled, and hits on those of them that the first
set. -/
theorem drawingTwiceRestoresDisplay : Obligations.DrawingTwiceRestoresDisplay := by
  unfold Obligations.DrawingTwiceRestoresDisplay
  intro s t u v x y x' y' n hin hfirst hdisp hir hmem hx hy hsecond
  rw [exec_drw_of_inside hin] at hfirst
  rw [exec_drw_of_inside (hir ▸ hin)] at hsecond
  obtain rfl := Host.Outcome.next.inj hfirst
  obtain rfl := Host.Outcome.next.inj hsecond
  have hbit : drawnBit u x' y' n = drawnBit s x y n := drawnBit_congr hir hmem hx hy
  have hhit := drawBlit_drawBlit_hit hdisp hbit
  have hflag : ∀ f : Byte, (u.v.set 15 f)[15] = f := fun f => Vector.getElem_set_self _
  refine ⟨drawBlit_drawBlit_disp hdisp hbit, ?_, ?_⟩
  · exact (Eq.congr_left (hflag _)).trans ((flagByte_eq_one _).trans hhit)
  · refine (Eq.congr_left (hflag _)).trans ((flagByte_eq_zero _).trans ?_)
    rw [← Bool.not_eq_true, hhit]
    simp only [not_exists, not_and, Bool.not_eq_false]

/-! ### LD_I and RND -/

theorem exec_ldI (nnn : Addr12) (s : State) :
    exec (.ldI nnn) s = .next { s with ir := nnn.setWidth 16, pc := s.pc + 2 } := rfl

/-- Settles O27: from 0xFFF one byte is inside memory and three are not. -/
theorem ldISetsIndex : Obligations.LdISetsIndex := by
  unfold Obligations.LdISetsIndex
  have hir : ∀ s : State, s.ir = (0xFFF : Addr12).setWidth 16 → s.ir.toNat = 4095 := fun s h => by rw [h]; rfl
  refine ⟨fun s nnn => exec_ldI nnn s, fun s x h => ?_, fun s x y h => ?_, fun w hf => decodeWord_familyA hf⟩
  · have hout : 4096 < s.ir.toNat + 3 := by rw [hir s h]; decide
    refine ⟨_, ?_, exec_of_access_outside (i := .ldB x) (Nat.succ_ne_zero 2) hout⟩
    rw [hir s h]
    rfl
  · have hin : s.ir.toNat + 1 ≤ 4096 := by rw [hir s h]
    exact ⟨_, exec_drw_of_inside (.inr hin) x y, rfl, rfl⟩

theorem exec_rnd (x : Reg) (nn : Byte) (s : State) :
    exec (.rnd x nn) s =
      .next { s with v := s.v.set x.val (nn &&& Config.randomByte s.draws), pc := s.pc + 2, draws := s.draws + 1 } :=
  rfl

/-- Settles O28: a bit of nn that is clear masks the bit of whatever byte is drawn. -/
theorem rndMasksAFreeByte : Obligations.RndMasksAFreeByte := by
  unfold Obligations.RndMasksAFreeByte
  refine fun s x nn => ⟨_, exec_rnd x nn s, rfl, fun k hk => ?_⟩
  rw [BitVec.getLsbD_and, hk, Bool.false_and]

end Sys2Proof.Machine

/-! ## Keys, timers, index and font, digits, spill and fill (45_key_timer_fx R108 to R121) -/

namespace Sys2Proof

/-- A word of family F decodes to the instruction that is encoded by its x and nn. -/
theorem decodeWord_familyF {w : Word} {nn : Byte} {i : Instr} (hf : fieldF w = 0xF#4) (hnn : fieldNN w = nn)
    (hi : encode i = wordFXNN 0xF#4 (nibble (fieldX w)) nn) : decodeWord w = some i :=
  decodeWord_eq_some_iff.2 (hi.trans (wordFXNN_eq_self hf hnn)).symm

end Sys2Proof

namespace Sys2Proof.Machine

/-! ### Bytes stored from ir on, and registers loaded from there -/

/-- Inside a run of bytes written, each is read back at its place. -/
theorem Memory.read_writeBytes_inside (m : Memory) (base : Nat) {bs : List Byte} {i : Nat} (h : i < bs.length) :
    (m.writeBytes base bs).read (base + i) = bs.getD i 0 := by
  rw [Memory.read_writeBytes, if_pos (by omega), Nat.add_sub_cancel_left]

/-- The digits of a byte are below 256, so their bytes hold them exactly (45_key_timer_fx R118). -/
theorem bcdDigits_getD_toNat (v : Byte) :
    ((bcdDigits v).getD 0 0).toNat = v.toNat / 100 ∧ ((bcdDigits v).getD 1 0).toNat = v.toNat / 10 % 10 ∧
      ((bcdDigits v).getD 2 0).toNat = v.toNat % 10 := by
  have hv := v.isLt
  have hbyte : ∀ d < 256, (BitVec.ofNat 8 d).toNat = d := fun d hd => Nat.mod_eq_of_lt hd
  exact ⟨hbyte _ (by omega), hbyte _ (by omega), hbyte _ (by omega)⟩

/-- The hundreds, tens and ones of a byte make it up, each within its bound (45_key_timer_fx R118). -/
theorem byte_eq_decimal_digits (v : Byte) :
    v.toNat = 100 * (v.toNat / 100) + 10 * (v.toNat / 10 % 10) + v.toNat % 10 ∧ v.toNat / 100 ≤ 2 ∧
      v.toNat / 10 % 10 ≤ 9 ∧ v.toNat % 10 ≤ 9 := by
  have hv := v.isLt
  omega

theorem Memory.read_writeBytes_regsUpTo (m : Memory) (base : Nat) (s : State) {x i : Reg} (h : i ≤ x) :
    (m.writeBytes base (regsUpTo s x)).read (base + i.val) = s.getV i := by
  have hi : i.val < (regsUpTo s x).length := by
    rw [regsUpTo_length]
    exact Nat.lt_succ_of_le h
  rw [Memory.read_writeBytes_inside m base hi, regsUpTo_getD s h]

/-- Loading x + 1 registers from base replaces V[0] to V[x] by the bytes there and keeps the others. -/
theorem writeRegs_readBytes_getElem (v : Vector Byte 16) (m : Memory) (base : Nat) (x i : Reg) :
    (writeRegs v 0 (m.readBytes base (x.val + 1)))[i.val] =
      if i ≤ x then m.read (base + i.val) else v[i.val] := by
  rw [writeRegs_getElem, Memory.readBytes_length]
  by_cases h : i ≤ x
  · have hi : i.val < x.val + 1 := Nat.lt_succ_of_le h
    rw [if_pos h, if_pos ⟨Nat.zero_le _, by omega⟩, Nat.sub_zero, Memory.readBytes_getD m base hi]
  · have hi : x.val < i.val := Nat.lt_of_not_le h
    rw [if_neg h, if_neg (by omega)]

/-! ### LD_B, LD_MEM_V and LD_V_MEM -/

theorem exec_ldB_of_inside {s : State} (h : s.ir.toNat + 3 ≤ memSize) (x : Reg) :
    exec (.ldB x) s =
      .next { s with mem := s.mem.writeBytes s.ir.toNat (bcdDigits (s.getV x)), pc := s.pc + 2 } :=
  completeInRange_of_inside (.inr h) _ _ _

theorem exec_ldMemV_of_inside {s : State} {x : Reg} (h : s.ir.toNat + x.val < memSize) :
    exec (.ldMemV x) s = .next { s with mem := s.mem.writeBytes s.ir.toNat (regsUpTo s x), pc := s.pc + 2 } :=
  completeInRange_of_inside (.inr h) _ _ _

theorem exec_ldVMem_of_inside {s : State} {x : Reg} (h : s.ir.toNat + x.val < memSize) :
    exec (.ldVMem x) s =
      .next { s with v := writeRegs s.v 0 (s.mem.readBytes s.ir.toNat (x.val + 1)), pc := s.pc + 2 } :=
  completeInRange_of_inside (.inr h) _ _ _

/-- Settles O37: the three bytes written are the digits. -/
theorem ldBStoresDecimalDigits : Obligations.LdBStoresDecimalDigits := by
  unfold Obligations.LdBStoresDecimalDigits
  intro s x h
  obtain ⟨hsum, hh, ht, ho⟩ := byte_eq_decimal_digits (s.getV x)
  obtain ⟨hundreds, tens, ones⟩ := bcdDigits_getD_toNat (s.getV x)
  have hread : ∀ i < 3, ((s.mem.writeBytes s.ir.toNat (bcdDigits (s.getV x))).read (s.ir.toNat + i)).toNat =
      ((bcdDigits (s.getV x)).getD i 0).toNat :=
    fun i hi => congrArg BitVec.toNat (Memory.read_writeBytes_inside _ _ hi)
  exact ⟨_, _, _, _, exec_ldB_of_inside h x, hsum, hh, ht, ho, (hread 0 (by decide)).trans hundreds,
    (hread 1 (by decide)).trans tens, (hread 2 (by decide)).trans ones,
    fun a ha => Memory.read_writeBytes_outside _ _ _ ha⟩

/-- Settles O38. -/
theorem ldMemVStoresRegisters : Obligations.LdMemVStoresRegisters := by
  unfold Obligations.LdMemVStoresRegisters
  intro s x h
  refine ⟨_, exec_ldMemV_of_inside h, fun i hi => Memory.read_writeBytes_regsUpTo _ _ s hi, fun a ha => ?_⟩
  exact Memory.read_writeBytes_outside _ _ _ (by rwa [regsUpTo_length])

/-- Settles O39. -/
theorem ldVMemLoadsRegisters : Obligations.LdVMemLoadsRegisters := by
  unfold Obligations.LdVMemLoadsRegisters
  intro s x h
  refine ⟨_, exec_ldVMem_of_inside h, fun i hi => ?_, fun i hi => ?_⟩
  · rw [writeRegs_readBytes_getElem, if_pos hi]
  · rw [writeRegs_readBytes_getElem, if_neg (Fin.not_le.2 hi)]
    rfl

/-- Settles O40: each register loaded is the byte that the store left, which is the register stored. -/
theorem storeThenLoadRestoresRegisters : Obligations.StoreThenLoadRestoresRegisters := by
  unfold Obligations.StoreThenLoadRestoresRegisters
  intro s t u x h hstore hir hmem
  rw [exec_ldMemV_of_inside h] at hstore
  obtain rfl := Host.Outcome.next.inj hstore
  refine ⟨_, exec_ldVMem_of_inside (hir.symm ▸ h), fun i hi => ?_⟩
  calc (writeRegs u.v 0 (u.mem.readBytes u.ir.toNat (x.val + 1)))[i.val]
      = u.mem.read (u.ir.toNat + i.val) := by rw [writeRegs_readBytes_getElem, if_pos hi]
    _ = (s.mem.writeBytes s.ir.toNat (regsUpTo s x)).read (s.ir.toNat + i.val) := by rw [hir, hmem i hi]
    _ = s.getV i := Memory.read_writeBytes_regsUpTo _ _ s hi

/-! ### Keys (45_key_timer_fx R108 to R110, R115) -/

theorem State.skipIf_advance (s : State) (taken : Bool) :
    s.advance.skipIf taken = { s with pc := if taken then s.pc + 4 else s.pc + 2 } := by
  cases taken with
  | true => exact State.skipIf_advance_of_true rfl
  | false => exact State.skipIf_advance_of_false rfl

/-- A key skip: KEY is written between the fetch's advance and the skip (45_key_timer_fx R108 to R110). -/
theorem State.skipIf_setKey_advance (s : State) (k : Option Key) (taken : Bool) :
    (s.advance.setKey k).skipIf taken = { s with key := k, pc := if taken then s.pc + 4 else s.pc + 2 } :=
  State.skipIf_advance (s.setKey k) taken

theorem exec_skp (x : Reg) (s : State) :
    exec (.skp x) s =
      .next { s with key := keyAfterSkip s.params.keySkipConsume s.key (s.getV x),
                     pc := if keyMatches s.key (s.getV x) then s.pc + 4 else s.pc + 2 } :=
  congrArg Host.Outcome.next (State.skipIf_setKey_advance s _ _)

/-- Ex9E's skip, turned around (45_key_timer_fx R109, D37). -/
theorem exec_sknp (x : Reg) (s : State) :
    exec (.sknp x) s =
      .next { s with key := keyAfterSkip s.params.keySkipConsume s.key (s.getV x),
                     pc := if keyMatches s.key (s.getV x) then s.pc + 2 else s.pc + 4 } := by
  refine (congrArg Host.Outcome.next (State.skipIf_setKey_advance s _ _)).trans ?_
  cases keyMatches s.key (s.getV x) <;> rfl

/-- Settles O32: the two skips compare and consume alike, and `keyAfterSkip` is a case for each value of the
parameter. -/
theorem keySkipsCompareAndConsume : Obligations.KeySkipsCompareAndConsume := by
  unfold Obligations.KeySkipsCompareAndConsume
  refine fun s x => ⟨_, _, (keyMatches_iff s.key (s.getV x)).trans Option.map_eq_some_iff, fun h => ?_, fun h => ?_,
    fun h => ?_, exec_skp x s, exec_sknp x s⟩
  all_goals rw [h, keyAfterSkip]

theorem exec_ldVK_of_none {s : State} (h : s.key = none) (x : Reg) : exec (.ldVK x) s = .next s := by
  simp only [exec, execLdVK, h, State.rewind_advance]

theorem exec_ldVK_of_some {s : State} {k : Key} (h : s.key = some k) (x : Reg) :
    exec (.ldVK x) s = .next { s with v := s.v.set x.val (keyByte k), key := none, pc := s.pc + 2 } := by
  simp only [exec, execLdVK, h]
  rfl

/-- Settles O33. -/
theorem waitForKeyRewindsOrTakes : Obligations.WaitForKeyRewindsOrTakes := by
  unfold Obligations.WaitForKeyRewindsOrTakes
  exact fun s x => ⟨fun h => exec_ldVK_of_none h x, fun k h => ⟨_, keyByte_toNat k, exec_ldVK_of_some h x⟩⟩

/-! ### The timer actor, by its phase (60_exceptions R134, R137, R139) -/

theorem decDelay_dt_toNat_of_due {s : State} (h : s.timer = .bothDue ∨ s.timer = .delayDue) :
    (decDelay s).dt.toNat = s.dt.toNat - 1 := by
  rcases h with h | h <;> (simp only [decDelay, h]; exact decTimer_toNat s.dt)

theorem decSound_st_toNat_of_due {s : State} (h : s.timer = .bothDue ∨ s.timer = .soundDue) :
    (decSound s).st.toNat = s.st.toNat - 1 := by
  rcases h with h | h <;> (simp only [decSound, h]; exact decTimer_toNat s.st)

theorem decDelay_of_not_due {s : State} (h : s.timer = .waiting ∨ s.timer = .soundDue ∨ s.timer = .stopped) :
    decDelay s = s := by
  rcases h with h | h | h <;> simp only [decDelay, h]

theorem decSound_of_not_due {s : State} (h : s.timer = .waiting ∨ s.timer = .delayDue ∨ s.timer = .stopped) :
    decSound s = s := by
  rcases h with h | h | h <;> simp only [decSound, h]

/-- The last decrement of a tick leaves the actor waiting. -/
theorem decDelay_of_delayDue {s : State} (h : s.timer = .delayDue) :
    decDelay s = (s.setDt (decTimer s.dt)).setTimer .waiting := by
  simp only [decDelay, h]

theorem decSound_of_soundDue {s : State} (h : s.timer = .soundDue) :
    decSound s = (s.setSt (decTimer s.st)).setTimer .waiting := by
  simp only [decSound, h]

theorem periodBoundary_of_waiting {s : State} (h : s.timer = .waiting) (hs : terminated s = false) :
    periodBoundary s = s.setTimer .bothDue := by
  simp [periodBoundary, h, hs]

theorem periodBoundary_of_stopped {s : State} (h : s.timer = .stopped) : periodBoundary s = s := by
  simp only [periodBoundary, h]

/-- A waiting actor's next DecDelay comes after the period boundary. -/
theorem decDelay_periodBoundary_dt_toNat {s : State} (h : s.timer = .waiting) (hs : terminated s = false) :
    (decDelay (periodBoundary s)).dt.toNat = s.dt.toNat - 1 := by
  rw [periodBoundary_of_waiting h hs]
  exact decDelay_dt_toNat_of_due (.inl rfl)

/-- A waiting actor's next DecSound comes after the period boundary. -/
theorem decSound_periodBoundary_st_toNat {s : State} (h : s.timer = .waiting) (hs : terminated s = false) :
    (decSound (periodBoundary s)).st.toNat = s.st.toNat - 1 := by
  rw [periodBoundary_of_waiting h hs]
  exact decSound_st_toNat_of_due (.inl rfl)

/-! ### The timer instructions (45_key_timer_fx R111 to R113) -/

theorem exec_ldVDt (x : Reg) (s : State) :
    exec (.ldVDt x) s = .next { s with v := s.v.set x.val s.dt, pc := s.pc + 2 } := rfl

theorem exec_ldDtV (x : Reg) (s : State) :
    exec (.ldDtV x) s = .next { s with dt := s.getV x, pc := s.pc + 2 } := rfl

theorem exec_ldStV (x : Reg) (s : State) :
    exec (.ldStV x) s = .next { s with st := s.getV x, pc := s.pc + 2 } := rfl

theorem dt_of_exec_ldDtV {s t : State} {x : Reg} (h : exec (.ldDtV x) s = .next t) : t.dt = s.getV x :=
  Host.Outcome.next.inj h ▸ rfl

theorem st_of_exec_ldStV {s t : State} {x : Reg} (h : exec (.ldStV x) s = .next t) : t.st = s.getV x :=
  Host.Outcome.next.inj h ▸ rfl

/-- Settles O34: what the next decrement of each timer does in each phase holds of every state, so of the one that the
write leaves. -/
theorem timerInstructions : Obligations.TimerInstructions := by
  unfold Obligations.TimerInstructions
  refine ⟨fun s x => ⟨exec_ldVDt x s, exec_ldDtV x s, exec_ldStV x s⟩, fun s t x h => ?_, fun s t x h => ?_,
    fun w hf => ⟨fun hnn => decodeWord_familyF hf hnn rfl, fun hnn => decodeWord_familyF hf hnn rfl,
      fun hnn => decodeWord_familyF hf hnn rfl⟩⟩
  · rw [← dt_of_exec_ldDtV h]
    refine ⟨decDelay_dt_toNat_of_due, fun hp hs => ⟨decDelay_of_not_due (.inr (.inl hp)), ?_⟩,
      fun hp hs => ⟨decDelay_of_not_due (.inl hp), decDelay_periodBoundary_dt_toNat hp hs⟩, fun hp => ?_⟩
    · rw [decSound_of_soundDue hp]
      exact decDelay_periodBoundary_dt_toNat rfl hs
    · rw [periodBoundary_of_stopped hp]
      exact ⟨decDelay_of_not_due (.inr (.inr hp)), decDelay_of_not_due (.inr (.inr hp))⟩
  · rw [← st_of_exec_ldStV h]
    refine ⟨decSound_st_toNat_of_due, fun hp hs => ⟨decSound_of_not_due (.inr (.inl hp)), ?_⟩,
      fun hp hs => ⟨decSound_of_not_due (.inl hp), decSound_periodBoundary_st_toNat hp hs⟩, fun hp => ?_⟩
    · rw [decDelay_of_delayDue hp]
      exact decSound_periodBoundary_st_toNat rfl hs
    · rw [periodBoundary_of_stopped hp]
      exact ⟨decSound_of_not_due (.inr (.inr hp)), decSound_of_not_due (.inr (.inr hp))⟩

/-! ### LD_I_V and LD_F (45_key_timer_fx R114, R116, R117) -/

theorem exec_ldIV (x : Reg) (s : State) :
    exec (.ldIV x) s = .next { s with ir := indexFromReg s x, pc := s.pc + 2 } := rfl

/-- Settles O35: the parameter selects between the value and the 16-bit sum. -/
theorem ldIVSetsIndex : Obligations.LdIVSetsIndex := by
  unfold Obligations.LdIVSetsIndex
  refine fun s x => ⟨_, exec_ldIV x s, fun h => ?_, fun h => ?_⟩
  · rw [indexFromReg, if_neg (by simp [h]), zextByte_toNat]
  · rw [indexFromReg, if_pos h, BitVec.toNat_add, zextByte_toNat]

theorem exec_ldF_of_le {s : State} {x : Reg} (h : (s.getV x).toNat ≤ 0xF) :
    exec (.ldF x) s = .next { s with ir := glyphAddress s.params (s.getV x), pc := s.pc + 2 } :=
  if_neg (Nat.not_lt.2 h)

theorem exec_ldF_of_gt {s : State} {x : Reg} (h : 0xF < (s.getV x).toNat) :
    exec (.ldF x) s = .refused (.unspecifiedGlyph (s.getV x)) :=
  if_pos h

theorem glyphStrideBytes_le (g : GlyphStride) : glyphStrideBytes g ≤ 5 := by
  cases g <;> decide

/-- Settles O36: the address of a glyph of a font inside memory does not wrap under either stride. -/
theorem ldFPointsAtGlyphOrIsRefused : Obligations.LdFPointsAtGlyphOrIsRefused := by
  unfold Obligations.LdFPointsAtGlyphOrIsRefused
  refine fun s x => ⟨fun h hfont => ?_, exec_ldF_of_gt⟩
  have hoffset := Nat.mul_le_mul h (glyphStrideBytes_le s.params.glyphStride)
  have hexact := glyphAddress_toNat s.params (s.getV x) (by omega)
  refine ⟨_, exec_ldF_of_le h, fun hstride => ?_, fun hstride => ?_⟩
  · rw [hexact, hstride, glyphStrideBytes, Nat.mul_one]
  · rw [hexact, hstride, glyphStrideBytes]

end Sys2Proof.Machine

/-! ## Faults, the timer actor and the host (60_exceptions R122 to R145) -/

namespace Sys2Proof.Machine

/-! ### The scheduled actions and the step port (R134, R141 to R144, R128) -/

/-- Settles O9: each action is the one that `act` gives its event. -/
theorem scheduledActionHappens : Obligations.ScheduledActionHappens := by
  unfold Obligations.ScheduledActionHappens
  exact fun s rest k => ⟨fun h => step_of_schedule_cons h, fun h => step_of_schedule_cons h,
    fun h => step_of_schedule_cons h, fun h => step_of_schedule_cons h, fun h => step_of_schedule_cons h,
    fun h => step_of_schedule_cons h⟩

theorem runNext_of_fetch_outside {s : State} (hrun : s.mode = .running) (hout : memSize < s.pc.toNat + 2) :
    runNext s = .next (s.haltWith (.outOfBounds (max s.pc.toNat memSize)) none) := by
  simp only [runNext, hrun, engineStep, fetch_of_outside hout, raise]

/-- Settles O11: where P is inside memory and P + 1 is not, P + 1 is 4096. -/
theorem fetchOutOfBoundsHalts : Obligations.FetchOutOfBoundsHalts := by
  unfold Obligations.FetchOutOfBoundsHalts
  intro s hrun hout
  have hfirst : max s.pc.toNat 4096 = if 4096 ≤ s.pc.toNat then s.pc.toNat else s.pc.toNat + 1 := by
    split <;> omega
  rw [runNext_of_fetch_outside hrun hout, hfirst]
  rfl

theorem runNext_of_halted {s : State} {r : FaultRecord} (h : s.mode = .halted r) : runNext s = .fault (.halted r) := by
  simp only [runNext, h]

/-- Settles O12. -/
theorem haltedHasNoEngineStep : Obligations.HaltedHasNoEngineStep := by
  unfold Obligations.HaltedHasNoEngineStep
  refine fun s r h => ⟨runNext_of_halted h, fun hs => ?_, fun rest hs => ?_⟩
  · rw [step_of_schedule_nil hs, runNext_of_halted h]
  · rw [step_of_schedule_cons hs]
    exact runNext_of_halted (s := s.setSchedule rest) h

/-- Settles O54: in Running the host's two writes are not ignored. -/
theorem keyboardPortWritesKeyAndExit : Obligations.KeyboardPortWritesKeyAndExit := by
  unfold Obligations.KeyboardPortWritesKeyAndExit
  intro s k hrun
  have hlive : ¬s.mode.isHalted = true := by simp [hrun, Mode.isHalted]
  exact ⟨congrArg Host.Outcome.next (if_neg hlive), congrArg Host.Outcome.next (if_neg hlive)⟩

/-! ### Fault entry (R122, R124, R125, R127, R129) -/

/-- The engine's step from Running into Halted is the fault entry of the fetch, of the decoder or of an instruction's
own check. -/
theorem runNext_halted_cases {s t : State} {r : FaultRecord} (h : runNext s = .next t) (hr : t.mode = .halted r) :
    t = { s with mode := .halted r } ∧
      ((r = ⟨.outOfBounds (max s.pc.toNat memSize), s.pc, none⟩ ∧ memSize < s.pc.toNat + 2) ∨
        ∃ w, fetch s = .ok w ∧
          (r = ⟨.invalidInstruction w, s.pc, some w⟩ ∨
            ∃ i f, ownFault i s = some f ∧ r = ⟨f, s.pc, some w⟩)) := by
  obtain ⟨hrun, ⟨hout, rfl⟩ | ⟨w, hw, ⟨-, rfl⟩ | ⟨i, hd, ⟨f, hf, rfl⟩ | ⟨-, rfl⟩⟩⟩⟩ := runNext_next_cases h
  · obtain rfl := Mode.halted.inj hr
    exact ⟨rfl, .inl ⟨rfl, hout⟩⟩
  · obtain rfl := Mode.halted.inj hr
    exact ⟨rfl, .inr ⟨w, hw, .inl rfl⟩⟩
  · obtain rfl := Mode.halted.inj hr
    rw [← decodeWord_eq_some_iff.1 hd]
    exact ⟨rfl, .inr ⟨w, hw, .inr ⟨i, f, hf, rfl⟩⟩⟩
  · rw [effectOf_mode, hrun] at hr
    cases hr

/-- Settles O41: the word is absent for the fetch's own fault alone, and each check raises faults of its own kind. -/
theorem faultEntryIsPrecise : Obligations.FaultEntryIsPrecise := by
  unfold Obligations.FaultEntryIsPrecise
  intro s t r _ h hr
  obtain ⟨ht, ⟨rfl, hout⟩ | ⟨w, hw, rfl | ⟨i, f, hf, rfl⟩⟩⟩ := runNext_halted_cases h hr
  · exact ⟨ht, rfl, .inl ⟨rfl, fetch_of_outside hout⟩, rfl, rfl, Nat.le_max_right _ _⟩
  · exact ⟨ht, rfl, .inr ⟨w, rfl, hw⟩, rfl, rfl, hw⟩
  · refine ⟨ht, rfl, .inr ⟨w, rfl, hw⟩, ?_⟩
    rcases ownFault_cases hf with ⟨rfl, -⟩ | ⟨rfl, -⟩ | ⟨a, rfl, ha⟩
    · exact ⟨rfl, rfl⟩
    · exact ⟨rfl, rfl⟩
    · exact ⟨rfl, rfl, ha⟩

/-- The mode after an instruction: Halted with the fault of its own check, or unchanged. -/
theorem exec_next_mode {i : Instr} {s t : State} (h : exec i s = .next t) :
    t.mode = (ownFault i s).elim s.mode fun f => .halted ⟨f, s.pc, some (encode i)⟩ := by
  rcases exec_next_cases h with ⟨hf, rfl⟩ | ⟨f, hf, rfl⟩
  · rw [hf, effectOf_mode]
    rfl
  · rw [hf]
    rfl

/-- The check of an instruction other than 00EE and 2nnn: the range that it accesses (20_memory R52). -/
theorem ownFault_of_range {i : Instr} (hret : i ≠ .ret) (hcall : ∀ nnn, i ≠ .call nnn) (s : State) :
    ownFault i s = if accessLength i ≠ 0 ∧ memSize < s.ir.toNat + accessLength i
      then some (.outOfBounds (max s.ir.toNat memSize)) else none := by
  split
  case isTrue hout =>
    obtain ⟨h0, hout⟩ := hout
    exact ownFault_of_access_outside h0 hout
  case isFalse hin =>
    have hnone : firstOutOfRange s.ir.toNat (accessLength i) = none := firstOutOfRange_eq_none.2 (by omega)
    have hmap := Option.map_eq_none_iff (f := EngineFault.outOfBounds).2 hnone
    cases i with
    | ret => exact absurd rfl hret
    | call nnn => exact absurd rfl (hcall nnn)
    | _ => exact hmap

/-- An instruction that checks a range enters Halted exactly if an address of it is outside memory (R124). -/
theorem exec_next_mode_of_range {i : Instr} {s t : State} {out : Prop} [Decidable out] (h : exec i s = .next t)
    (hret : i ≠ .ret) (hcall : ∀ nnn, i ≠ .call nnn)
    (hout : accessLength i ≠ 0 ∧ memSize < s.ir.toNat + accessLength i ↔ out) :
    t.mode = if out then .halted ⟨.outOfBounds (max s.ir.toNat memSize), s.pc, some (encode i)⟩ else s.mode := by
  simp only [exec_next_mode h, ownFault_of_range hret hcall, hout]
  split <;> rfl

/-- Settles O42: the two checks of the stack, the four ranges that are accessed, and no range for the other
instructions. -/
theorem onlyOwnChecksFault : Obligations.OnlyOwnChecksFault := by
  unfold Obligations.OnlyOwnChecksFault
  intro i s t hrun h
  rw [← hrun]
  cases i with
  | ret =>
    rw [exec_next_mode h, ownFault]
    split <;> rfl
  | call nnn =>
    rw [exec_next_mode h, ownFault]
    split <;> rfl
  | drw x y n => exact exec_next_mode_of_range h (by simp) (by simp) Iff.rfl
  | ldB x => exact exec_next_mode_of_range h (by simp) (by simp) (by simp only [accessLength, memSize]; omega)
  | ldMemV x => exact exec_next_mode_of_range h (by simp) (by simp) (by simp only [accessLength, memSize]; omega)
  | ldVMem x => exact exec_next_mode_of_range h (by simp) (by simp) (by simp only [accessLength, memSize]; omega)
  | _ =>
    have hinside := exec_next_mode_of_range (out := False) h (by simp) (by simp) (by simp [accessLength])
    exact hinside.trans (if_neg id)

/-! ### The timer actor's moves (R134, R135, R137, R139) -/

/-- Settles O52: in either order each decrement is due once, and the second ends the tick. -/
theorem tickDecrementsEachTimerOnce : Obligations.TickDecrementsEachTimerOnce := by
  unfold Obligations.TickDecrementsEachTimerOnce
  intro s hwait hexit hrun
  have hlive : terminated s = false := by simp [terminated, hexit, hrun, Mode.isHalted]
  have hend : ((s.setDt (decTimer s.dt)).setSt (decTimer s.st)).setTimer .waiting =
      { s with dt := decTimer s.dt, st := decTimer s.st } := by rw [← hwait]; rfl
  rw [periodBoundary_of_waiting hwait hlive]
  exact ⟨_, _, decTimer_toNat _, decTimer_toNat _, hend, hend, rfl, rfl, rfl, rfl⟩

/-- What an action of the timer actor or the host does to the timers and the phase: nothing, or the move of the period
boundary, of DecDelay or of DecSound. -/
inductive TimersMove (e : Event) (s t : State) : Prop where
  | rest (hdt : t.dt = s.dt) (hst : t.st = s.st) (hphase : t.timer = s.timer)
  | boundary (hdt : t.dt = s.dt) (hst : t.st = s.st) (hwait : s.timer = .waiting)
      (hphase : t.timer = if terminated s then .stopped else .bothDue)
  | delay (he : e = .decDelay) (hdt : t.dt = decTimer s.dt) (hst : t.st = s.st)
      (hphase : s.timer = .bothDue ∧ t.timer = .soundDue ∨ s.timer = .delayDue ∧ t.timer = .waiting)
  | sound (he : e = .decSound) (hdt : t.dt = s.dt) (hst : t.st = decTimer s.st)
      (hphase : s.timer = .bothDue ∧ t.timer = .delayDue ∨ s.timer = .soundDue ∧ t.timer = .waiting)

theorem periodBoundary_timersMove (s : State) : TimersMove .periodBoundary s (periodBoundary s) := by
  rcases periodBoundary_cases s with ⟨hwait, hterm, h⟩ | ⟨hwait, hterm, h⟩ | ⟨-, h⟩ <;> rw [h]
  · exact .boundary rfl rfl hwait (by simp [hterm])
  · exact .boundary rfl rfl hwait (by simp [hterm])
  · exact .rest rfl rfl rfl

theorem decDelay_timersMove (s : State) : TimersMove .decDelay s (decDelay s) := by
  rcases decDelay_cases s with ⟨hdue, h⟩ | ⟨hdue, h⟩ | ⟨-, -, h⟩ <;> rw [h]
  · exact .delay rfl rfl rfl (.inl ⟨hdue, rfl⟩)
  · exact .delay rfl rfl rfl (.inr ⟨hdue, rfl⟩)
  · exact .rest rfl rfl rfl

theorem decSound_timersMove (s : State) : TimersMove .decSound s (decSound s) := by
  rcases decSound_cases s with ⟨hdue, h⟩ | ⟨hdue, h⟩ | ⟨-, -, h⟩ <;> rw [h]
  · exact .sound rfl rfl rfl (.inl ⟨hdue, rfl⟩)
  · exact .sound rfl rfl rfl (.inr ⟨hdue, rfl⟩)
  · exact .rest rfl rfl rfl

theorem act_timersMove {e : Event} {s t : State} (hne : e ≠ .runNextInstruction) (h : act e s = .next t) :
    TimersMove e s t := by
  cases e with
  | runNextInstruction => exact absurd rfl hne
  | periodBoundary => exact Host.Outcome.next.inj h ▸ periodBoundary_timersMove s
  | decDelay => exact Host.Outcome.next.inj h ▸ decDelay_timersMove s
  | decSound => exact Host.Outcome.next.inj h ▸ decSound_timersMove s
  | setCurrentKey k =>
    obtain rfl := Host.Outcome.next.inj h
    rcases setCurrentKey_eq k s with hk | ⟨-, hk⟩ <;> rw [hk] <;> exact .rest rfl rfl rfl
  | requestExit =>
    obtain rfl := Host.Outcome.next.inj h
    rcases requestExit_eq s with hx | ⟨-, hx⟩ <;> rw [hx] <;> exact .rest rfl rfl rfl
  | getDisplay =>
    obtain rfl := Host.Outcome.next.inj h
    exact .rest rfl rfl rfl

theorem decTimer_toNat_le (b : Byte) : (decTimer b).toNat ≤ b.toNat := by
  rw [decTimer_toNat]
  exact Nat.sub_le _ _

/-- A decrement that changes the timer takes 1 from it. -/
theorem toNat_eq_decTimer_add_one {b : Byte} (h : decTimer b ≠ b) : b.toNat = (decTimer b).toNat + 1 := by
  have hne : (decTimer b).toNat ≠ b.toNat := fun heq => h (BitVec.eq_of_toNat_eq heq)
  rw [decTimer_toNat] at hne ⊢
  omega

/-! ### Sequences of actions -/

/-- If each action of a list has a next state to which a preorder leads, so has the whole list. -/
theorem actAll_related {P : Event → Prop} {R : State → State → Prop} (hrefl : ∀ s, R s s)
    (htrans : ∀ s t u, R s t → R t u → R s u) (hact : ∀ e s, P e → ∃ t, act e s = .next t ∧ R s t)
    (es : List Event) (s : State) (hes : ∀ e ∈ es, P e) : ∃ t, actAll es s = .next t ∧ R s t := by
  induction es generalizing s with
  | nil => exact ⟨s, rfl, hrefl s⟩
  | cons e es ih =>
    obtain ⟨he, hes⟩ := List.forall_mem_cons.1 hes
    obtain ⟨u, hu, hsu⟩ := hact e s he
    obtain ⟨t, ht, hut⟩ := ih u hes
    exact ⟨t, by simpa only [actAll, hu] using ht, htrans s u t hsu hut⟩

/-! ### The reach of the timer actor and of the host (R142, R144, R145) -/

/-- t is s with other timers, neither of them above its value in s, and another phase. -/
def LowersTimersOnly (s t : State) : Prop :=
  ∃ (d e : Byte) (p : TimerPhase),
    t = { s with dt := d, st := e, timer := p } ∧ d.toNat ≤ s.dt.toNat ∧ e.toNat ≤ s.st.toNat

theorem LowersTimersOnly.refl (s : State) : LowersTimersOnly s s := ⟨s.dt, s.st, s.timer, rfl, le_rfl, le_rfl⟩

theorem LowersTimersOnly.trans (s t u : State) :
    LowersTimersOnly s t → LowersTimersOnly t u → LowersTimersOnly s u := by
  rintro ⟨d, e, p, rfl, hd, he⟩ ⟨d', e', p', rfl, hd', he'⟩
  exact ⟨d', e', p', rfl, hd'.trans hd, he'.trans he⟩

theorem act_lowersTimersOnly {e : Event} (he : e = .periodBoundary ∨ e = .decDelay ∨ e = .decSound) (s : State) :
    ∃ t, act e s = .next t ∧ LowersTimersOnly s t := by
  rcases he with rfl | rfl | rfl
  · obtain ⟨p, hp⟩ := periodBoundary_eq s
    exact ⟨_, rfl, s.dt, s.st, p, hp, le_rfl, le_rfl⟩
  · refine ⟨_, rfl, ?_⟩
    rcases decDelay_eq s with hd | ⟨p, hd⟩ <;> rw [hd]
    · exact .refl s
    · exact ⟨_, s.st, p, rfl, decTimer_toNat_le _, le_rfl⟩
  · refine ⟨_, rfl, ?_⟩
    rcases decSound_eq s with hd | ⟨p, hd⟩ <;> rw [hd]
    · exact .refl s
    · exact ⟨s.dt, _, p, rfl, le_rfl, decTimer_toNat_le _⟩

/-- Settles O53. -/
theorem timerActorReachesTimersOnly : Obligations.TimerActorReachesTimersOnly := by
  unfold Obligations.TimerActorReachesTimersOnly
  intro es s hes
  obtain ⟨t, ht, d, e, p, rfl, hd, he⟩ :=
    actAll_related LowersTimersOnly.refl LowersTimersOnly.trans (fun _ s he => act_lowersTimersOnly he s) es s hes
  exact ⟨_, ht, rfl, hd, he⟩

/-- t is s with another KEY and another EXIT, which is not cleared. -/
def WritesPortsOnly (s t : State) : Prop :=
  ∃ (k : Option Key) (x : Bool), t = { s with key := k, exit := x } ∧ (s.exit = true → x = true)

theorem WritesPortsOnly.refl (s : State) : WritesPortsOnly s s := ⟨s.key, s.exit, rfl, id⟩

theorem WritesPortsOnly.trans (s t u : State) : WritesPortsOnly s t → WritesPortsOnly t u → WritesPortsOnly s u := by
  rintro ⟨k, x, rfl, hx⟩ ⟨k', x', rfl, hx'⟩
  exact ⟨k', x', rfl, hx' ∘ hx⟩

theorem act_writesPortsOnly {e : Event} (he : (∃ k, e = .setCurrentKey k) ∨ e = .requestExit ∨ e = .getDisplay)
    (s : State) : ∃ t, act e s = .next t ∧ WritesPortsOnly s t := by
  rcases he with ⟨k, rfl⟩ | rfl | rfl
  · refine ⟨_, rfl, ?_⟩
    rcases setCurrentKey_eq k s with hk | ⟨-, hk⟩ <;> rw [hk]
    · exact .refl s
    · exact ⟨k, s.exit, rfl, id⟩
  · refine ⟨_, rfl, ?_⟩
    rcases requestExit_eq s with hx | ⟨-, hx⟩ <;> rw [hx]
    · exact .refl s
    · exact ⟨s.key, true, rfl, fun _ => rfl⟩
  · exact ⟨s, rfl, .refl s⟩

/-- Settles O55. -/
theorem hostCannotChangeCoreState : Obligations.HostCannotChangeCoreState := by
  unfold Obligations.HostCannotChangeCoreState
  intro es s hes
  obtain ⟨t, ht, k, x, rfl, hx⟩ :=
    actAll_related WritesPortsOnly.refl WritesPortsOnly.trans (fun _ s he => act_writesPortsOnly he s) es s hes
  exact ⟨_, ht, rfl, hx⟩

/-! ### After a fault (R128, R139) -/

/-- An action that has a next state in Halted is the timer actor's, or the host's, which changes nothing there. -/
theorem act_of_halted {e : Event} {s t : State} {r : FaultRecord} (hr : s.mode = .halted r) (h : act e s = .next t) :
    e ≠ .runNextInstruction ∧ LowersTimersOnly s t := by
  have timerAction (he : e = .periodBoundary ∨ e = .decDelay ∨ e = .decSound) : LowersTimersOnly s t := by
    obtain ⟨u, hu, hsu⟩ := act_lowersTimersOnly he s
    rwa [← Host.Outcome.next.inj (hu.symm.trans h)]
  have hhalted : s.mode.isHalted = true := by rw [hr]; rfl
  have hkey (k : Option Key) : setCurrentKey k s = s := if_pos hhalted
  have hexit : requestExit s = s := if_pos hhalted
  cases e with
  | runNextInstruction =>
    rw [act, runNext_of_halted hr] at h
    cases h
  | periodBoundary => exact ⟨nofun, timerAction (.inl rfl)⟩
  | decDelay => exact ⟨nofun, timerAction (.inr (.inl rfl))⟩
  | decSound => exact ⟨nofun, timerAction (.inr (.inr rfl))⟩
  | setCurrentKey k => exact ⟨nofun, Host.Outcome.next.inj h ▸ (hkey k).symm ▸ .refl s⟩
  | requestExit => exact ⟨nofun, Host.Outcome.next.inj h ▸ hexit.symm ▸ .refl s⟩
  | getDisplay => exact ⟨nofun, Host.Outcome.next.inj h ▸ .refl s⟩

theorem terminated_of_halted {s : State} {r : FaultRecord} (h : s.mode = .halted r) : terminated s = true := by
  simp [terminated, h, Mode.isHalted]

/-- Settles O13: a step with a next state is a scheduled action, and its move of the timers says which decrement was
due. -/
theorem haltedStateDoesNotChange : Obligations.HaltedStateDoesNotChange := by
  unfold Obligations.HaltedStateDoesNotChange
  intro s t r hr h
  cases hs : s.schedule with
  | nil =>
    rw [step_of_schedule_nil hs, runNext_of_halted hr] at h
    cases h
  | cons e rest =>
    rw [step_of_schedule_cons hs] at h
    obtain ⟨hne, d, d', p, ht, -, -⟩ := act_of_halted (s := s.setSchedule rest) hr h
    refine ⟨by rw [ht]; rfl, ?_⟩
    rcases act_timersMove hne h with ⟨hdt, hst, hphase⟩ | ⟨hdt, hst, hwait, hphase⟩ | ⟨rfl, hdt, hst, hphase⟩ |
      ⟨rfl, hdt, hst, hphase⟩
    · exact ⟨fun hd => absurd hdt hd, fun hd => absurd hst hd, fun _ => ⟨hdt, hst, .inl hphase⟩⟩
    · rw [if_pos (terminated_of_halted (s := s.setSchedule rest) hr)] at hphase
      exact ⟨fun hd => absurd hdt hd, fun hd => absurd hst hd, fun _ => ⟨hdt, hst, .inr hphase⟩⟩
    · refine ⟨fun hd => ⟨⟨rest, rfl⟩, ?_, hphase⟩, fun hd => absurd hst hd, fun hidle => ?_⟩
      · rw [hdt] at hd ⊢
        exact toNat_eq_decTimer_add_one hd
      · rcases hphase with ⟨hp, -⟩ | ⟨hp, -⟩ <;> simp [show s.timer = _ from hp] at hidle
    · refine ⟨fun hd => absurd hdt hd, fun hd => ⟨⟨rest, rfl⟩, ?_, hphase⟩, fun hidle => ?_⟩
      · rw [hst] at hd ⊢
        exact toNat_eq_decTimer_add_one hd
      · rcases hphase with ⟨hp, -⟩ | ⟨hp, -⟩ <;> simp [show s.timer = _ from hp] at hidle

/-! ### After the termination signal (R139) -/

/-- How often DecDelay is still due in the tick in progress. -/
def TimerPhase.delayOwed : TimerPhase → Nat
  | .waiting => 0
  | .bothDue => 1
  | .delayDue => 1
  | .soundDue => 0
  | .stopped => 0

/-- How often DecSound is still due in the tick in progress. -/
def TimerPhase.soundOwed : TimerPhase → Nat
  | .waiting => 0
  | .bothDue => 1
  | .delayDue => 0
  | .soundDue => 1
  | .stopped => 0

theorem TimerPhase.delayOwed_le_one (p : TimerPhase) : p.delayOwed ≤ 1 := by cases p <;> decide

theorem TimerPhase.soundOwed_le_one (p : TimerPhase) : p.soundOwed ≤ 1 := by cases p <;> decide

/-- A timer with its value and the decrements owed to it goes from (b, n) to (b', n'): it does not rise, and what it
loses was owed. -/
def LosesOwed (b b' : Byte) (n n' : Nat) : Prop := b'.toNat ≤ b.toNat ∧ b.toNat + n' ≤ b'.toNat + n

theorem LosesOwed.refl (b : Byte) (n : Nat) : LosesOwed b b n n := ⟨le_rfl, le_rfl⟩

theorem LosesOwed.trans {b b' b'' : Byte} {n n' n'' : Nat} (h : LosesOwed b b' n n') (h' : LosesOwed b' b'' n' n'') :
    LosesOwed b b'' n n'' := by
  unfold LosesOwed at *
  omega

theorem losesOwed_decTimer (b : Byte) : LosesOwed b (decTimer b) 1 0 := by
  unfold LosesOwed
  rw [decTimer_toNat]
  omega

/-- From a state with the termination signal, t keeps the signal and each timer loses what the tick in progress owes. -/
def OnlyFinishesTick (s t : State) : Prop :=
  terminated s = true → terminated t = true ∧ LosesOwed s.dt t.dt s.timer.delayOwed t.timer.delayOwed ∧
    LosesOwed s.st t.st s.timer.soundOwed t.timer.soundOwed

theorem OnlyFinishesTick.refl (s : State) : OnlyFinishesTick s s := fun hs => ⟨hs, .refl _ _, .refl _ _⟩

theorem OnlyFinishesTick.trans (s t u : State) (h : OnlyFinishesTick s t) (h' : OnlyFinishesTick t u) :
    OnlyFinishesTick s u := by
  intro hs
  obtain ⟨ht, hdt, hst⟩ := h hs
  obtain ⟨hu, hdt', hst'⟩ := h' ht
  exact ⟨hu, hdt.trans hdt', hst.trans hst'⟩

/-- EXIT is sticky and Halted is never left, so the termination signal stays. -/
theorem act_keeps_terminated {e : Event} {s t : State} (h : act e s = .next t) (hs : terminated s = true) :
    terminated t = true := by
  obtain ⟨hexit, -, hmode⟩ := act_keeps_exit_params_halted h
  rcases (Bool.or_eq_true _ _).mp hs with hx | hm
  · simp [terminated, hexit hx]
  · cases hr : s.mode with
    | running => simp [hr, Mode.isHalted] at hm
    | halted r => exact terminated_of_halted (hmode r hr)

/-- With the termination signal no tick begins, so a move of the timers takes what was owed. -/
theorem TimersMove.losesOwed {e : Event} {s t : State} (h : TimersMove e s t) (hs : terminated s = true) :
    LosesOwed s.dt t.dt s.timer.delayOwed t.timer.delayOwed ∧
      LosesOwed s.st t.st s.timer.soundOwed t.timer.soundOwed := by
  rcases h with ⟨hdt, hst, hphase⟩ | ⟨hdt, hst, hwait, hphase⟩ | ⟨-, hdt, hst, hphase⟩ |
    ⟨-, hdt, hst, hphase⟩
  · rw [hdt, hst, hphase]
    exact ⟨.refl _ _, .refl _ _⟩
  · rw [if_pos hs] at hphase
    rw [hdt, hst, hwait, hphase]
    exact ⟨.refl _ _, .refl _ _⟩
  · rcases hphase with ⟨hp, hp'⟩ | ⟨hp, hp'⟩ <;> rw [hdt, hst, hp, hp'] <;>
      exact ⟨losesOwed_decTimer _, .refl _ _⟩
  · rcases hphase with ⟨hp, hp'⟩ | ⟨hp, hp'⟩ <;> rw [hdt, hst, hp, hp'] <;>
      exact ⟨.refl _ _, losesOwed_decTimer _⟩

theorem act_onlyFinishesTick {e : Event} (hne : e ≠ .runNextInstruction) (s : State) :
    ∃ t, act e s = .next t ∧ OnlyFinishesTick s t := by
  obtain ⟨t, ht⟩ := act_next_of_ne hne s
  exact ⟨t, ht, fun hs => ⟨act_keeps_terminated ht hs, (act_timersMove hne ht).losesOwed hs⟩⟩

/-- Settles O56: a tick owes at most one decrement of each timer, and a waiting actor owes none. -/
theorem atMostOneTickFollowsTermination : Obligations.AtMostOneTickFollowsTermination := by
  unfold Obligations.AtMostOneTickFollowsTermination
  refine ⟨fun es s t hes hs h => ?_, fun s hstop => ?_⟩
  · obtain ⟨u, hu, hsu⟩ :=
      actAll_related OnlyFinishesTick.refl OnlyFinishesTick.trans (fun _ s hne => act_onlyFinishesTick hne s) es s hes
    obtain rfl := Host.Outcome.next.inj (hu.symm.trans h)
    obtain ⟨-, ⟨hdt, hdtOwed⟩, ⟨hst, hstOwed⟩⟩ := hsu hs
    have hdelay := s.timer.delayOwed_le_one
    have hsound := s.timer.soundOwed_le_one
    refine ⟨by omega, by omega, fun hwait => ?_⟩
    rw [hwait, TimerPhase.delayOwed] at hdtOwed
    rw [hwait, TimerPhase.soundOwed] at hstOwed
    exact ⟨BitVec.eq_of_toNat_eq (by omega), BitVec.eq_of_toNat_eq (by omega)⟩
  · exact ⟨periodBoundary_of_stopped hstop, decDelay_of_not_due (.inr (.inr hstop)),
      decSound_of_not_due (.inr (.inr hstop))⟩

/-! ### Weakly fair executions (R138) -/

theorem runNext_timer {s t : State} (h : runNext s = .next t) : t.timer = s.timer := by
  obtain ⟨-, ⟨-, rfl⟩ | ⟨w, -, ⟨-, rfl⟩ | ⟨i, -, ⟨f, -, rfl⟩ | ⟨-, rfl⟩⟩⟩⟩ := runNext_next_cases h
  · rfl
  · rfl
  · rfl
  · obtain ⟨-, -, htimer, -, -⟩ := effectOf_frame i s
    exact htimer

/-- A DecDelay that is due stays due until it happens. -/
theorem act_delayOwed {e : Event} {s t : State} (h : act e s = .next t) (howed : s.timer.delayOwed = 1) :
    t.timer.delayOwed = 1 ∨ t.dt.toNat = s.dt.toNat - 1 := by
  by_cases he : e = .runNextInstruction
  · subst he
    exact .inl (runNext_timer h ▸ howed)
  · rcases act_timersMove he h with ⟨-, -, hphase⟩ | ⟨-, -, hwait, -⟩ | ⟨-, hdt, -, -⟩ |
      ⟨-, -, -, ⟨-, hp⟩ | ⟨hp, -⟩⟩
    · exact .inl (hphase ▸ howed)
    · rw [hwait] at howed
      cases howed
    · exact .inr (hdt ▸ decTimer_toNat s.dt)
    · exact .inl (hp ▸ rfl)
    · rw [hp] at howed
      cases howed

/-- The actor stops at a period boundary with the termination signal only. -/
theorem act_keeps_not_stopped {e : Event} {s t : State} (h : act e s = .next t) (hlive : terminated s = false)
    (hs : s.timer ≠ .stopped) : t.timer ≠ .stopped := by
  by_cases he : e = .runNextInstruction
  · subst he
    exact runNext_timer h ▸ hs
  · rcases act_timersMove he h with ⟨-, -, hphase⟩ | ⟨-, -, -, hphase⟩ | ⟨-, -, -, ⟨-, hp⟩ | ⟨-, hp⟩⟩ |
      ⟨-, -, -, ⟨-, hp⟩ | ⟨-, hp⟩⟩
    · exact hphase ▸ hs
    · simp [hphase, hlive]
    all_goals simp [hp]

section Execution

variable {σ : Nat → State} {e : Nat → Event} (hσ : IsExecution σ e)
include hσ

theorem IsExecution.terminated_mono {n m : Nat} (hnm : n ≤ m) (hn : terminated (σ n) = true) :
    terminated (σ m) = true := by
  induction m, hnm using Nat.le_induction with
  | base => exact hn
  | succ m _ ih => exact act_keeps_terminated (hσ m) ih

/-- A DecDelay that is due stays due, or has happened. -/
theorem IsExecution.delayOwed_or_decremented {n m : Nat} (hnm : n ≤ m) (hn : (σ n).timer.delayOwed = 1) :
    (σ m).timer.delayOwed = 1 ∨ ∃ k, n ≤ k ∧ (σ (k + 1)).dt.toNat = (σ k).dt.toNat - 1 := by
  induction m, hnm using Nat.le_induction with
  | base => exact .inl hn
  | succ m hnm ih =>
    rcases ih with howed | hdone
    · exact (act_delayOwed (hσ m) howed).imp_right fun hdec => ⟨m, hnm, hdec⟩
    · exact .inr hdone

theorem IsExecution.delayOwed_of_tickBegins {n : Nat} (h : TickBegins σ e n) : (σ (n + 1)).timer.delayOwed = 1 := by
  obtain ⟨he, hwait, hlive⟩ := h
  have hnext := hσ n
  rw [he, act, periodBoundary_of_waiting hwait hlive] at hnext
  rw [← Host.Outcome.next.inj hnext]
  rfl

/-- Where ticks begin again and again, DT is decremented again and again: a tick cannot begin before the last one's
DecDelay has happened. -/
theorem IsExecution.decremented_infinitely_often (hticks : InfinitelyOften (TickBegins σ e)) :
    InfinitelyOften fun k => (σ (k + 1)).dt.toNat = (σ k).dt.toNat - 1 := by
  intro n
  obtain ⟨b, hnb, hbegin⟩ := hticks n
  obtain ⟨c, hbc, -, hwait, -⟩ := hticks (b + 1)
  rcases hσ.delayOwed_or_decremented hbc (hσ.delayOwed_of_tickBegins hbegin) with howed | ⟨k, hbk, hdec⟩
  · rw [hwait] at howed
    cases howed
  · exact ⟨k, by omega, hdec⟩

end Execution

/-- A count that never rises and is taken down by 1 again and again reaches 0 after every point. -/
theorem exists_eq_zero_of_decremented {d : Nat → Nat} (hle : ∀ n, d (n + 1) ≤ d n)
    (hdec : InfinitelyOften fun k => d (k + 1) = d k - 1) (n : Nat) : ∃ m, n ≤ m ∧ d m = 0 := by
  induction hn : d n using Nat.strong_induction_on generalizing n with
  | _ b ih =>
    obtain ⟨k, hnk, hk⟩ := hdec n
    have hkn : d k ≤ d n := antitone_nat_of_succ_le hle hnk
    rcases Nat.eq_zero_or_pos (d k) with h0 | hpos
    · exact ⟨k, hnk, h0⟩
    · obtain ⟨m, hkm, hm⟩ := ih (d (k + 1)) (by omega) (k + 1) rfl
      exact ⟨m, by omega, hm⟩

/-- Settles O60: an actor that never stopped would begin ticks again and again, which the termination signal forbids,
and whose decrements take DT down to 0. -/
theorem delayTimerReachesZeroWhenFair : Obligations.DelayTimerReachesZeroWhenFair := by
  unfold Obligations.DelayTimerReachesZeroWhenFair
  intro σ e hσ hfair hsteps
  refine ⟨fun ⟨n, hn⟩ => ?_, fun hnever hle n => ?_, fun hstart hlive n => ?_⟩
  · by_contra hnever
    obtain ⟨m, hnm, -, -, hlive⟩ := hfair hsteps (not_exists.1 hnever) n
    rw [hσ.terminated_mono hnm hn] at hlive
    cases hlive
  · have hdec := hσ.decremented_infinitely_often (hfair hsteps hnever)
    obtain ⟨m, hnm, hm⟩ := exists_eq_zero_of_decremented (d := fun k => (σ k).dt.toNat) hle hdec n
    exact ⟨m, hnm, BitVec.eq_of_toNat_eq hm⟩
  · induction n with
    | zero => exact hstart
    | succ n ih => exact act_keeps_not_stopped (hσ n) (hlive n) ih

end Sys2Proof.Machine

namespace Sys2Proof.Machine

/-! ## The boot sequence (70_reset R152, R153) -/

/-- A byte inside a run of bytes written is the run's. -/
theorem Memory.read_writeBytes_getElem (m : Memory) (base : Nat) {bs : List Byte} {i : Nat} (h : i < bs.length) :
    (m.writeBytes base bs).read (base + i) = bs[i] := by
  rw [Memory.read_writeBytes_inside m base h, List.getElem_eq_getD 0]

/-- Memory after the boot: the font's bytes on zeroed memory, and the program's bytes over them. -/
def bootMem (p : Params) (font : Vector Byte 80) (program : List Byte) : Memory :=
  (State.reset.mem.writeBytes p.fontBase font.toList).writeBytes p.progBase program

/-- With data that fits, both loads of the boot succeed, and the second leaves pc at PROG_BASE. -/
theorem boot_of_inside {p : Params} {font : Vector Byte 80} {program : List Byte}
    (hfont : p.fontBase + font.toList.length ≤ memSize) (hprog : p.progBase + program.length ≤ memSize) :
    boot p font program =
      .ok { State.reset with params := p, mem := bootMem p font program, pc := BitVec.ofNat 16 p.progBase } := by
  rw [boot, load_of_inside hfont]
  exact load_of_inside hprog true _

/-- Settles O51: the program is written last, so a font byte stands where the program does not overlap it, and outside
both runs memory reads as at reset. -/
theorem bootLeavesProgramAndFont : Obligations.BootLeavesProgramAndFont := by
  unfold Obligations.BootLeavesProgramAndFont
  intro p font program hfont hprog
  have hlen : font.toList.length = 80 := Vector.length_toList
  refine ⟨bootMem p font program, boot_of_inside (by rwa [hlen]) hprog, fun i hi => ?_, fun i hi hout => ?_,
    fun a hprogOut hfontOut => ?_⟩
  · exact Memory.read_writeBytes_getElem _ _ hi
  · rw [bootMem, Memory.read_writeBytes_outside _ _ _ hout, Memory.read_writeBytes_getElem _ _ (by rwa [hlen]),
      Vector.getElem_toList]
  · rw [bootMem, Memory.read_writeBytes_outside _ _ _ hprogOut, Memory.read_writeBytes_outside _ _ _ (by rwa [hlen])]
    rfl

/-! ## What can raise DT (70_reset R159, 60_exceptions R135) -/

/-- The engine writes DT by a fetched Fx15 only: a fault entry and the other effects leave it. -/
theorem runNext_dt {s t : State} (h : runNext s = .next t) :
    t.dt = s.dt ∨ ∃ w x, fetch s = .ok w ∧ decodeWord w = some (.ldDtV x) ∧ t.dt = s.getV x := by
  obtain ⟨-, ⟨-, rfl⟩ | ⟨w, hw, ⟨-, rfl⟩ | ⟨i, hd, ⟨f, -, rfl⟩ | ⟨-, rfl⟩⟩⟩⟩ := runNext_next_cases h
  · exact .inl rfl
  · exact .inl rfl
  · exact .inl rfl
  · rcases effectOf_dt i s with hdt | ⟨x, rfl⟩
    · exact .inl hdt
    · exact .inr ⟨w, x, hw, hd, rfl⟩

theorem TimersMove.dt_toNat_le {e : Event} {s t : State} (h : TimersMove e s t) : t.dt.toNat ≤ s.dt.toNat := by
  rcases h with ⟨hdt, -, -⟩ | ⟨hdt, -, -, -⟩ | ⟨-, hdt, -, -⟩ | ⟨-, hdt, -, -⟩ <;> rw [hdt]
  exact decTimer_toNat_le s.dt

/-- Settles O57: a step of the engine leaves DT or is an Fx15, and the other agents' moves of the timers do not raise
it. -/
theorem delayTimerRisesOnlyByLdDtV : Obligations.DelayTimerRisesOnlyByLdDtV := by
  unfold Obligations.DelayTimerRisesOnlyByLdDtV
  intro e s t h
  by_cases he : e = .runNextInstruction
  · subst he
    rcases runNext_dt h with hdt | hload
    · exact .inl (hdt ▸ le_rfl)
    · exact .inr ⟨rfl, hload⟩
  · exact .inl (act_timersMove he h).dt_toNat_le

end Sys2Proof.Machine
